-- ==== Sys2Proof/Word.lean ====
section
/-! DEFINITION. The word and byte types of the machine (spec/00_scope.md R7: 32-bit registers and addresses, 8-bit
bytes) and the register numbers (spec/10_state.md R20, R21). -/

namespace Sys2Proof

/-- A register value or an address: a 32-bit pattern, `+` and `-` modulo 2^32 (R7, R11). -/
abbrev Word := BitVec 32

/-- The addressable unit (R7, R50). -/
abbrev Byte := BitVec 8

/-- A general register's number; every value of a 4-bit field names a register (R20). -/
abbrev Reg := Fin 16

namespace Reg

/-- Register 0, hard coded to zero (R22). -/
abbrev zero : Reg := 0
/-- Register 1, "Assembler temporary". -/
abbrev at_ : Reg := 1
/-- Register 2, the stack pointer. -/
abbrev sp : Reg := 2
/-- Register 3, "Frame Pointer". -/
abbrev fp : Reg := 3
/-- Register 4, the program counter (R23). -/
abbrev pc : Reg := 4
/-- Register 5, "Return address". -/
abbrev ra : Reg := 5
/-- Register 6, system call selector and first result. -/
abbrev v0 : Reg := 6
/-- Register 7, second result. -/
abbrev v1 : Reg := 7
/-- Register 8, first system call argument. -/
abbrev g0 : Reg := 8
/-- Register 9, second system call argument. -/
abbrev g1 : Reg := 9
/-- Register 10. -/
abbrev g2 : Reg := 10
/-- Register 11. -/
abbrev g3 : Reg := 11
/-- Register 12. -/
abbrev g4 : Reg := 12
/-- Register 13. -/
abbrev g5 : Reg := 13
/-- Register 14. -/
abbrev g6 : Reg := 14
/-- Register 15. -/
abbrev g7 : Reg := 15

end Reg

end Sys2Proof
end

