-- ==== Sys2Proof/Config.lean ====
section
/-! DEFINITION. What the spec leaves to the implementation or the host (spec/00_scope.md R8): the parameters of the step
relation, the loader's parameters, and the host's answers to the three read system calls. -/

namespace Sys2Proof

/-- `BYTE_ORDER`: the order of the bytes of a 16-bit or 32-bit datum in memory (spec/20_memory.md R55). OPEN. -/
inductive ByteOrder where
  | big
  | little
  deriving DecidableEq, Repr

/-- A run of `size` addresses that have memory behind them, from `base` up. -/
structure Region where
  base : Nat
  size : Nat
  deriving DecidableEq, Repr

/-- The parameters a step depends on (R8): fixed for a whole run (R51, R55), so they stand in the state as plain data and
every claim "for every state" holds for every value of them. DESIGN CHOICE, log 1. -/
structure Params where
  /-- `BYTE_ORDER` (R55). -/
  byteOrder : ByteOrder
  /-- `Mapped` (R51): an address is mapped exactly when some region holds it. -/
  mapped    : List Region
  /-- `HEAP_LIMIT`: the break may not pass this address (spec/44_system_calls.md R208). -/
  heapLimit : Nat
  deriving DecidableEq, Repr

/-- All the parameters the loader chooses before the first step (R8, spec/70_reset_and_hazards.md R251). -/
structure Setup where
  params  : Params
  /-- `ENTRY`: the program counter at reset. -/
  entry   : Word
  /-- `SP_INIT`: the stack pointer at reset. -/
  spInit  : Word
  /-- `BRK_INIT`: the program break at reset. -/
  brkInit : Word
  /-- `Image`: the memory contents at reset, over zeros. -/
  image   : List Host.Cell
  deriving DecidableEq, Repr

/-- The oracle's answer to read int at its `n`-th draw (spec/44_system_calls.md R205): "the model places no constraint
on it". Free value, log 3. -/
opaque Config.readInt : Nat → Word

/-- The oracle's answer to read chr at its `n`-th draw (R206). Free value, log 3. -/
opaque Config.readChr : Nat → Word

/-- The bytes the host holds for read str at its `n`-th draw, for the given `max size` (R207), before the two laws of
R207 (no zero byte, at most `max size - 1` bytes) are imposed on them. Free value, log 3. -/
opaque Config.readStr : Nat → Nat → List Byte

end Sys2Proof
end

