-- ==== Sys2Proof/Machine/Memory.lean ====
section
/-! DEFINITION. Memory as plain data (spec/10_state.md R36, spec/20_memory.md R50, R51, R60): a list of (address, byte) in
one canonical form; and which addresses are mapped. -/

namespace Sys2Proof.Machine

/-- The bytes that differ from what an unlisted address reads as. -/
abbrev Memory := List Host.Cell

/-- R40: "every mapped byte not in `Image` is `0x00`". -/
def Memory.unlisted : Byte := 0x00

/-- The byte at an address. -/
def Memory.byteAt : Memory → Nat → Byte
  | [], _ => Memory.unlisted
  | (k, v) :: m, a => if k = a then v else Memory.byteAt m a

/-- A cell in front of a memory all of whose addresses are higher: left out where the byte is what an unlisted address
reads as. -/
def Memory.cons (a : Nat) (b : Byte) (m : Memory) : Memory :=
  if b = Memory.unlisted then m else (a, b) :: m

/-- The memory after `b` is written at `a`, still in canonical form. -/
def Memory.store : Memory → Nat → Byte → Memory
  | [], a, b => Memory.cons a b []
  | (k, v) :: m, a, b =>
    if a < k then Memory.cons a b ((k, v) :: m)
    else if a = k then Memory.cons a b m
    else (k, v) :: Memory.store m a b

/-- The canonical form: addresses strictly rising and below 2^32, no entry equal to what an unlisted address reads as. -/
def Memory.wf : Memory → Bool
  | [] => true
  | (a, b) :: m => decide (a < 2 ^ 32) && decide (b ≠ Memory.unlisted) && m.all (fun c => decide (a < c.1)) && Memory.wf m

/-- An address lies in a region. -/
def regionHolds (r : Region) (a : Nat) : Bool := decide (r.base ≤ a) && decide (a < r.base + r.size)

/-- `Mapped(a)`: a byte of memory exists at `a` (R51). -/
def isMapped (p : Params) (a : Word) : Bool := p.mapped.any (fun r => regionHolds r a.toNat)

/-- The addresses `a_k = (addr + k) mod 2^32` for `k = 0 .. n-1` (R56, R59). -/
def addresses (addr : Word) (n : Nat) : List Word := (List.range n).map (fun k => addr + BitVec.ofNat 32 k)

/-- The bytes `bs` stored at `addr`, `addr + 1`, ... (modulo 2^32), in ascending order. -/
def Memory.storeBytes (m : Memory) (addr : Word) : List Byte → Memory
  | [] => m
  | b :: bs => Memory.storeBytes (m.store addr.toNat b) (addr + 1) bs

/-- R40, R251: the loaded image over zeros. A later entry for an address wins, and an entry at an address that is not
mapped is dropped, since no byte exists there (log 7). -/
def Memory.ofImage (p : Params) (image : List Host.Cell) : Memory :=
  image.foldl (fun m c => if c.1 < 2 ^ 32 && isMapped p (BitVec.ofNat 32 c.1) then m.store c.1 c.2 else m) []

end Sys2Proof.Machine
end

