-- ==== Sys2Proof/Machine/Setup.lean ====
section
/-! DEFINITION. The loader's choices at the defaults of spec/00_scope.md R8 (log 2), and the general registers at reset
(spec/10_state.md R40). -/

namespace Sys2Proof.Machine

/-- `MEM_SIZE` at its default: "size of the default mapped region, which starts at address 0" (R8). -/
def memSize : Nat := 0x10000

/-- The step's parameters at their defaults (R8): `BYTE_ORDER` is `big`, `Mapped(a)` is `a < MEM_SIZE`, `HEAP_LIMIT` is
`MEM_SIZE`. -/
def defaultParams : Params :=
  { byteOrder := .big
    mapped    := [{ base := 0, size := memSize }]
    heapLimit := memSize }

/-- The loader's parameters at their defaults (R8): `ENTRY` is 0, `SP_INIT` is `MEM_SIZE - 4`, `BRK_INIT` is 0x8000. No
program is loaded: the image is empty (log 5). -/
def defaultSetup : Setup :=
  { params  := defaultParams
    entry   := 0x00000000
    spInit  := BitVec.ofNat 32 (memSize - 4)
    brkInit := 0x00008000
    image   := [] }

/-- R40: register 4 is `ENTRY`, register 2 is `SP_INIT`, every other general register is 0. -/
def resetRegisters (c : Setup) : Vector Word 16 :=
  ((Vector.replicate 16 0).set Reg.sp c.spInit).set Reg.pc c.entry

end Sys2Proof.Machine
end

