-- ==== Sys2Proof/Machine/State.lean ====
section
/-! DEFINITION. The state of the machine (spec/10_state.md, spec/00_scope.md R6), the reasons a step stops, and the state
right after reset (R40, spec/70_reset_and_hazards.md R250). -/

namespace Sys2Proof.Machine

/-- The one special register, section by section (R28): bits 31:16, 15:12, 11:8 and 7:0. -/
structure SpecialRegister where
  /-- Bits 31:16: "not in use", constant 0, reached by no instruction (R35). -/
  unused    : BitVec 16
  /-- Bits 15:12: hard-wired `0b0000`, reached by no instruction (R33). -/
  mode      : BitVec 4
  /-- Bits 11:8: bit 0 of the section is U; bits 3:1 are stored and have no effect (R33). -/
  modifiers : BitVec 4
  /-- Bits 7:0: Z, C, S, O are bits 3, 2, 1, 0; bits 7:4 are constant 0 (R30). -/
  flags     : BitVec 8
  deriving DecidableEq, Repr

/-- One output event (R38): what print int, print chr and print str append (spec/44_system_calls.md R202 to R204). -/
inductive Event where
  /-- The 32-bit pattern and the value of U. -/
  | printInt (value : Word) (u : Bool)
  | printChr (byte : Byte)
  | printStr (bytes : List Byte)
  deriving DecidableEq, Repr

/-- The kind of a faulting data access (spec/60_exceptions.md R223). -/
inductive Access where
  | read
  | write
  deriving DecidableEq, Repr

/-- The spec's own faults: its closed list of seven (R220 to R227), with the values each lists beside the address of the
faulting instruction. -/
inductive Cause where
  /-- A byte of the instruction being fetched is unmapped (R221). -/
  | fetchFault (addr : Word)
  /-- The first byte selects no instruction (R222). -/
  | illegalInstruction (b0 : Byte)
  /-- A byte of a data access is unmapped (R223). -/
  | memFault (addr : Word) (kind : Access)
  /-- `div` by zero (R224). -/
  | divideByZero
  /-- `syscall` with v0 above 7 (R225). -/
  | badSyscall (sel : Word)
  /-- `sbrk` past `HEAP_LIMIT` (R226). -/
  | outOfMemory (n : Word)
  /-- print str of 2^32 non-zero bytes (R227). -/
  | unterminatedString
  deriving DecidableEq, Repr

/-- The run status (R39). `halted` and `faulted` are terminal. -/
inductive Status where
  | running
  | halted  (code : Word)
  /-- `Faulted(F, info, a)`: the fault with its values, and the address of the faulting instruction (R220). -/
  | faulted (cause : Cause) (a : Word)
  deriving DecidableEq, Repr

/-- Why `step` gives no next state. Both are raised by `step` alone, on a status that is terminal (R255: "The machine has
a step exactly when its status is `Running`"). The spec's own faults are entered as a `faulted` status (R220), a next
state, so that no effect of theirs is lost; the stop follows at the next step (log 4). -/
inductive Fault where
  /-- The run ended normally (R256). Safe: there is no step to model. -/
  | halted  (code : Word)
  /-- The run ended in a fault (R220, R256). Safe: there is no step to model. -/
  | faulted (cause : Cause) (a : Word)
  deriving DecidableEq, Repr

/-- Why the model gives an instruction no meaning. -/
inductive Refusal where
  /-- Raised by an arm of `exec` for an instruction that has no meaning yet; no arm does so now. Safe. -/
  | notModelled (mnemonic : String)
  deriving DecidableEq, Repr

/-- Everything the spec gives the machine, and the parameters of the step. -/
structure State where
  /-- The sixteen general registers, register 4 the program counter (R20, R23); read and written through `getReg` and
  `setReg` only. -/
  regs      : Vector Word 16
  /-- The special register (R28). -/
  sr        : SpecialRegister
  /-- Memory (R36). -/
  mem       : Memory
  /-- The program break (R37). -/
  brk       : Word
  /-- The output events, oldest first (R38). -/
  out       : List Event
  /-- "the input oracle's position" (spec/10_state.md, preamble): how many draws have been made (log 3). -/
  oraclePos : Nat
  /-- The run status (R39). -/
  status    : Status
  /-- The parameters of the step relation (spec/00_scope.md R8), changed by no step (log 1). -/
  params    : Params
  deriving DecidableEq, Repr

/-- R250, R251: the machine as the loader starts it. -/
def State.load (c : Setup) : State :=
  { regs      := resetRegisters c
    sr        := { unused := 0, mode := 0, modifiers := 0, flags := 0 }
    mem       := Memory.ofImage c.params c.image
    brk       := c.brkInit
    out       := []
    oraclePos := 0
    status    := .running
    params    := c.params }

/-- The machine right after reset, with the loader's parameters at the spec's defaults (R8, R40; log 2). -/
def State.reset : State := State.load defaultSetup

end Sys2Proof.Machine
end

