-- ==== Sys2Proof/Machine/Operands.lean ====
section
/-! DEFINITION. What the operand forms and the computing instructions work out from values alone, with no state: extension,
halves, the branch offset, shifts, products and quotients. -/

namespace Sys2Proof.Machine

/-! ## Narrow loads and immediates -/

/-- R12, R34: the low `n` bits of a value, sign-extended to 32 bits when U is clear and zero-extended when U is set
(spec/41_two_byte.md R134, R136). -/
def extendNarrow (n : Nat) (u : Bool) (v : Word) : Word :=
  if u then (v.setWidth n).setWidth 32 else (v.setWidth n).signExtend 32

/-- spec/43_four_byte.md R190: `{v[31:16], imm16}`. -/
def withLowHalf (v : Word) (imm : BitVec 16) : Word := v.extractLsb' 16 16 ++ imm

/-- spec/43_four_byte.md R191: `{imm16, v[15:0]}`. -/
def withHighHalf (v : Word) (imm : BitVec 16) : Word := imm ++ v.extractLsb' 0 16

/-- spec/43_four_byte.md R192: where a taken branch goes, from the advanced program counter. -/
def branchTarget (pc : Word) (offset : Int) : Word := pc + BitVec.ofInt 32 offset

/-! ## Shifts -/

/-- spec/42_three_byte.md R167: the amount of a variable shift, `x[rt][4:0]`. -/
def shiftAmount (v : Word) : Nat := (v.extractLsb' 0 5).toNat

/-- R164, R167: bits shifted out at the top are lost, zeros enter at the bottom. -/
def shiftLeft (v : Word) (n : Nat) : Word := v <<< n

/-- R165, R168: zeros enter at the top, whatever U is. -/
def shiftRightLogical (v : Word) (n : Nat) : Word := v >>> n

/-- R166, R169: `floor(signed(v) / 2^n) mod 2^32`, whatever U is. -/
def shiftRightArithmetic (v : Word) (n : Nat) : Word := BitVec.ofInt 32 (Int.fdiv v.toInt (2 ^ n))

/-! ## Multiplication and division -/

/-- spec/41_two_byte.md R139: the exact product, in 64 bits, signed when U is clear and unsigned when U is set. -/
def product (u : Bool) (a b : Word) : BitVec 64 :=
  if u then BitVec.ofNat 64 (a.toNat * b.toNat) else BitVec.ofInt 64 (a.toInt * b.toInt)

/-- R140: the quotient as an integer, rounded down when U is set and toward zero when U is clear. -/
def quotientInt (u : Bool) (a b : Word) : Int :=
  if u then (a.toNat / b.toNat : Nat) else Int.tdiv a.toInt b.toInt

/-- R140: the remainder as an integer, dividend less quotient times divisor. -/
def remainderInt (u : Bool) (a b : Word) : Int :=
  if u then (a.toNat : Int) - quotientInt u a b * b.toNat else a.toInt - quotientInt u a b * b.toInt

/-- R140: `q mod 2^32`. -/
def quotient (u : Bool) (a b : Word) : Word := BitVec.ofInt 32 (quotientInt u a b)

/-- R140: `r mod 2^32`. -/
def remainder (u : Bool) (a b : Word) : Word := BitVec.ofInt 32 (remainderInt u a b)

end Sys2Proof.Machine
end

