-- ==== Sys2Proof/Machine/Flags.lean ====
section
/-! DEFINITION. The flags (spec/10_state.md R30 to R32): what each of the fourteen computing instructions makes of them, in
one replaceable function `flagsOf`, as R32 asks. -/

namespace Sys2Proof.Machine

/-- The fourteen flag-writing instructions (R32), as `flagsOf` tells them apart. -/
inductive Compute where
  | not | mul | div | and | or | xor | sll | srl | sra | sllv | srlv | srav | add | sub
  deriving DecidableEq, Repr

/-- The four flags (R31). -/
structure FlagBits where
  z : Bool
  c : Bool
  s : Bool
  o : Bool
  deriving DecidableEq, Repr

/-- spec/00_scope.md R16: `{0, 0, 0, 0, z, c, s, o}`, the reserved flag bits 0. -/
def FlagBits.section (f : FlagBits) : BitVec 8 :=
  0b0000#4 ++ BitVec.ofBool f.z ++ BitVec.ofBool f.c ++ BitVec.ofBool f.s ++ BitVec.ofBool f.o

/-- R16, `SetZS(r)`: Z and S from a 32-bit result, C and O clear. -/
def zsFlags (r : Word) : FlagBits := { z := r == 0, c := false, s := r.msb, o := false }

/-- R32, `add`: C is the unsigned overflow, O the signed one. -/
def addFlags (a b : Word) : FlagBits :=
  let r := a + b
  { z := r == 0
    c := decide (a.toNat + b.toNat ≥ 2 ^ 32)
    s := r.msb
    o := a.msb == b.msb && r.msb != a.msb }

/-- R32, `sub`: C is the borrow. -/
def subFlags (a b : Word) : FlagBits :=
  let r := a - b
  { z := r == 0
    c := decide (a.toNat < b.toNat)
    s := r.msb
    o := a.msb != b.msb && r.msb != a.msb }

/-- R32, `mul`: Z and S from the 64-bit product. -/
def mulFlags (u : Bool) (a b : Word) : FlagBits :=
  let p := product u a b
  { z := p == 0, c := false, s := p.msb, o := false }

/-- R32, `div`: Z and S from the quotient, O for -2^31 / -1 with U clear. -/
def divFlags (u : Bool) (a b : Word) : FlagBits :=
  let q := quotient u a b
  { z := q == 0
    c := false
    s := q.msb
    o := !u && a == 0x80000000 && b == 0xFFFFFFFF }

/-- The 32-bit result of a computing instruction on its operands; the lower half of the product for `mul`, the quotient
for `div`. The right operand of a shift is the amount, that of `not` is not used. -/
def resultOf (op : Compute) (u : Bool) (a b : Word) : Word :=
  match op with
  | .not => ~~~a
  | .mul => (product u a b).extractLsb' 0 32
  | .div => quotient u a b
  | .and => a &&& b
  | .or => a ||| b
  | .xor => a ^^^ b
  | .sll => shiftLeft a b.toNat
  | .srl => shiftRightLogical a b.toNat
  | .sra => shiftRightArithmetic a b.toNat
  | .sllv => shiftLeft a (shiftAmount b)
  | .srlv => shiftRightLogical a (shiftAmount b)
  | .srav => shiftRightArithmetic a (shiftAmount b)
  | .add => a + b
  | .sub => a - b

/-- The second result, for v1 (R139, R140): the upper half of the product, the remainder. The other instructions have
none, and 0 stands for it. -/
def secondOf (op : Compute) (u : Bool) (a b : Word) : Word :=
  match op with
  | .mul => (product u a b).extractLsb' 32 32
  | .div => remainder u a b
  | .not | .and | .or | .xor | .sll | .srl | .sra | .sllv | .srlv | .srav | .add | .sub => 0

/-- R32: `flags_of(instruction, U, a, b)`. -/
def flagsOf (op : Compute) (u : Bool) (a b : Word) : FlagBits :=
  match op with
  | .add => addFlags a b
  | .sub => subFlags a b
  | .mul => mulFlags u a b
  | .div => divFlags u a b
  | .not | .and | .or | .xor | .sll | .srl | .sra | .sllv | .srlv | .srav => zsFlags (resultOf op u a b)

end Sys2Proof.Machine
end

