-- ==== Sys2Proof/Machine/Ops.lean ====
section
/-! DEFINITION. The named operations over the state that every meaning is written in: registers, the special register,
memory, taking a fault, and the shared shapes of the computing instructions. -/

namespace Sys2Proof.Machine

/-- What an instruction or a step answers. -/
abbrev Result := Host.Outcome State Fault Refusal

/-! ## General registers -/

/-- spec/00_scope.md R13, spec/10_state.md R22: `x[i]`; register 0 reads 0. -/
def State.getReg (s : State) (r : Reg) : Word := if r = Reg.zero then 0 else s.regs[r]

/-- R13, R22, R25: `x[i] <- v`; a write to register 0 is discarded, a write to register 4 is a jump. -/
def State.setReg (s : State) (r : Reg) (v : Word) : State :=
  if r = Reg.zero then s else { s with regs := s.regs.set r v }

/-- The place of register 0 in the register file, which no operation writes. -/
def State.zeroPlace (s : State) : Word := s.regs[Reg.zero]

/-- The program counter is register 4 (R23). -/
def State.pc (s : State) : Word := s.getReg Reg.pc

/-- R24: before an instruction's own semantics run, `x[4] <- a + L`. -/
def State.advance (s : State) (length : Nat) : State := s.setReg Reg.pc (s.pc + BitVec.ofNat 32 length)

/-! ## The special register -/

/-- R28: the register as one 32-bit word. -/
def SpecialRegister.word (r : SpecialRegister) : Word := r.unused ++ r.mode ++ r.modifiers ++ r.flags

/-- R33: U is bit 0 of the modifiers section. -/
def State.u (s : State) : Bool := s.sr.modifiers.getLsbD 0

/-- R16: `SetFlags`, the whole flags section written. -/
def State.setFlags (s : State) (f : FlagBits) : State := { s with sr := { s.sr with flags := f.section } }

/-- spec/41_two_byte.md R145: the modifiers section written. -/
def State.setModifiers (s : State) (m : BitVec 4) : State := { s with sr := { s.sr with modifiers := m } }

/-! ## The other fields -/

/-- The memory replaced. -/
def State.setMem (s : State) (m : Memory) : State := { s with mem := m }

/-- The break replaced (R37). -/
def State.setBrk (s : State) (b : Word) : State := { s with brk := b }

/-- The run status replaced (R39). -/
def State.setStatus (s : State) (st : Status) : State := { s with status := st }

/-- R38: one event appended to `out`. -/
def State.emit (s : State) (e : Event) : State := { s with out := s.out ++ [e] }

/-- One draw made from the oracle (R38). -/
def State.drawn (s : State) : State := { s with oraclePos := s.oraclePos + 1 }

/-! ## Taking a fault

The one way out of an instruction that does not complete (spec/00_scope.md R15, spec/60_exceptions.md R220, R233). The
spec has no other exception, no handler and no return from one (R232, R234), so there is no operation for a return. -/

/-- `raise F(info)` in the step that began in state `s`: everything is as it was before the step, and the status is
`Faulted(F, info, a)` with `a` the address of the instruction. -/
def State.raise (s : State) (cause : Cause) : Result := .next (s.setStatus (.faulted cause s.pc))

/-- The end of the step that began in `s`: the state its pseudocode leaves, or the fault it raises. -/
def State.finish (s : State) : Except Cause State → Result
  | .ok t => .next t
  | .error cause => s.raise cause

/-! ## Memory -/

/-- `Mapped(a)` (spec/20_memory.md R51). -/
def State.mapped (s : State) (a : Word) : Bool := isMapped s.params a

/-- The byte of memory at an address. -/
def State.byteAt (s : State) (a : Word) : Byte := s.mem.byteAt a.toNat

/-- The lowest-indexed unmapped byte of an access (R56, R57, R223). -/
def State.firstUnmapped (s : State) (addr : Word) (n : Nat) : Option Word :=
  (addresses addr n).find? (fun a => !s.mapped a)

/-- The `n` bytes at `addr`, ascending, or the fault `fault` makes of the first unmapped one. -/
def State.readBytes (s : State) (fault : Word → Cause) (addr : Word) (n : Nat) : Except Cause (List Byte) :=
  match s.firstUnmapped addr n with
  | some a => .error (fault a)
  | none => .ok ((addresses addr n).map s.byteAt)

/-- R56: the bytes of a datum in ascending address order, assembled in the byte order. -/
def assemble (order : ByteOrder) (bs : List Byte) : Word :=
  let bigEndian := match order with
    | .big => bs
    | .little => bs.reverse
  bigEndian.foldl (fun acc b => (acc <<< 8) ||| b.setWidth 32) 0

/-- R57: the low `8n` bits of a value as `n` bytes in ascending address order. -/
def split (order : ByteOrder) (n : Nat) (v : Word) : List Byte :=
  let littleEndian := (List.range n).map (fun k => v.extractLsb' (8 * k) 8)
  match order with
  | .big => littleEndian.reverse
  | .little => littleEndian

/-- R56: `MemRead(addr, n)`, the value in the low `8n` bits. -/
def State.memRead (s : State) (addr : Word) (n : Nat) : Except Cause Word :=
  match s.readBytes (fun a => .memFault a .read) addr n with
  | .error cause => .error cause
  | .ok bs => .ok (assemble s.params.byteOrder bs)

/-- The bytes stored at ascending addresses from `addr`, all of them or none (R57, spec/44_system_calls.md R207). -/
def State.writeBytes (s : State) (addr : Word) (bs : List Byte) : Except Cause State :=
  match s.firstUnmapped addr bs.length with
  | some a => .error (.memFault a .write)
  | none => .ok (s.setMem (s.mem.storeBytes addr bs))

/-- R57: `MemWrite(addr, n, v)`. -/
def State.memWrite (s : State) (addr : Word) (n : Nat) (v : Word) : Except Cause State :=
  s.writeBytes addr (split s.params.byteOrder n v)

/-! ## Shapes shared by the computing instructions (spec/10_state.md R32) -/

/-- One result in `rd`, and all four flags. -/
def State.compute (s : State) (op : Compute) (rd : Reg) (a b : Word) : State :=
  (s.setReg rd (resultOf op s.u a b)).setFlags (flagsOf op s.u a b)

/-- Two results, in v0 and v1 (spec/41_two_byte.md R139, R140), and all four flags. -/
def State.computePair (s : State) (op : Compute) (a b : Word) : State :=
  ((s.setReg Reg.v0 (resultOf op s.u a b)).setReg Reg.v1 (secondOf op s.u a b)).setFlags (flagsOf op s.u a b)

end Sys2Proof.Machine
end

