-- ==== Sys2Proof/Machine/FourByte.lean ====
section
/-! DEFINITION. The four-byte instructions (spec/43_four_byte.md R190 to R192). -/

namespace Sys2Proof.Machine

/-- R190: `x[rd] <- {x[rd][31:16], imm16}`. -/
def execLi (rd : Reg) (immed : BitVec 16) (s : State) : Result :=
  let t := s.advance 4
  .next (t.setReg rd (withLowHalf (t.getReg rd) immed))

/-- R191: `x[rd] <- {imm16, x[rd][15:0]}`. -/
def execLui (rd : Reg) (immed : BitVec 16) (s : State) : Result :=
  let t := s.advance 4
  .next (t.setReg rd (withHighHalf (t.getReg rd) immed))

/-- R192: a jump by the offset from the advanced program counter when the two registers are equal. -/
def execBeq (rd rs : Reg) (immed : Int) (s : State) : Result :=
  let t := s.advance 4
  if t.getReg rd = t.getReg rs then .next (t.setReg Reg.pc (branchTarget t.pc immed)) else .next t

end Sys2Proof.Machine
end

