-- ==== Sys2Proof/Machine/SystemCalls.lean ====
section
/-! DEFINITION. The eight services of the host (spec/44_system_calls.md R200 to R209). Each works on the state whose program
counter is already past the `syscall` byte, and changes only what its rule names (R200). -/

namespace Sys2Proof.Machine

/-- R201, exit: `status <- Halted(x[8])`. -/
def serviceExit (t : State) : State := t.setStatus (.halted (t.getReg Reg.g0))

/-- R202, print int: the pattern of g0 and the current U. -/
def servicePrintInt (t : State) : State := t.emit (.printInt (t.getReg Reg.g0) t.u)

/-- R203, print chr: the low eight bits of g0. -/
def servicePrintChr (t : State) : State := t.emit (.printChr ((t.getReg Reg.g0).setWidth 8))

/-- R204: the bytes from `p` up to, not including, the first zero byte; `fuel` bytes without one raise
`UnterminatedString`. -/
def State.readString (t : State) : Nat → Word → Except Cause (List Byte)
  | 0, _ => .error .unterminatedString
  | fuel + 1, p =>
    match t.memRead p 1 with
    | .error cause => .error cause
    | .ok v =>
      if v.setWidth 8 = (0 : Byte) then .ok []
      else
        match t.readString fuel (p + 1) with
        | .error cause => .error cause
        | .ok bs => .ok (v.setWidth 8 :: bs)

/-- R204, print str: one event with the whole string; the fault comes "after 2^32 bytes". -/
def servicePrintStr (t : State) : Except Cause State :=
  match t.readString (2 ^ 32) (t.getReg Reg.g0) with
  | .error cause => .error cause
  | .ok bs => .ok (t.emit (.printStr bs))

/-- R205, read int, with the oracle's answer: v0 is the answer. -/
def serviceReadInt (answer : Word) (t : State) : State := (t.setReg Reg.v0 answer).drawn

/-- R206, read chr, with the oracle's answer: v0 is the answer. -/
def serviceReadChr (answer : Word) (t : State) : State := (t.setReg Reg.v0 answer).drawn

/-- R207: what the model holds of the answer to read str: "length(s) <= m - 1 and no zero byte in it". An answer with
those two properties is taken whole (log 3). -/
def lawfulAnswer (max : Nat) (answer : List Byte) : List Byte := (answer.filter (fun b => b ≠ 0)).take (max - 1)

/-- R207, read str, with the oracle's answer as a function of `max size`: nothing for a `max size` of 0, and then no draw
is made; else the answer and a zero byte at `dest`, all of it or a fault. -/
def serviceReadStr (answer : Nat → List Byte) (t : State) : Except Cause State :=
  let m := (t.getReg Reg.g1).toNat
  if m = 0 then .ok t
  else
    match t.writeBytes (t.getReg Reg.g0) (lawfulAnswer m (answer m) ++ [0]) with
    | .error cause => .error cause
    | .ok t' => .ok t'.drawn

/-- R208, sbrk: the old break in v0, the break advanced by the unsigned g0; past `HEAP_LIMIT` as integers it faults. -/
def serviceSbrk (t : State) : Except Cause State :=
  let n := t.getReg Reg.g0
  if t.brk.toNat + n.toNat > t.params.heapLimit then .error (.outOfMemory n)
  else .ok ((t.setReg Reg.v0 t.brk).setBrk (t.brk + n))

/-- R120, R200, R209: the service that the whole 32-bit value of v0 selects. -/
def service (t : State) : Except Cause State :=
  match (t.getReg Reg.v0).toNat with
  | 0 => .ok (serviceExit t)
  | 1 => .ok (servicePrintInt t)
  | 2 => .ok (servicePrintChr t)
  | 3 => servicePrintStr t
  | 4 => .ok (serviceReadInt (Config.readInt t.oraclePos) t)
  | 5 => .ok (serviceReadChr (Config.readChr t.oraclePos) t)
  | 6 => serviceReadStr (Config.readStr t.oraclePos) t
  | 7 => serviceSbrk t
  | _ => .error (.badSyscall (t.getReg Reg.v0))

end Sys2Proof.Machine
end

