-- ==== Sys2Proof/Machine/SingleByte.lean ====
section
/-! DEFINITION. The single-byte instructions (spec/40_single_byte.md). In every meaning of the four families `s` is the
state when the step begins and `t` the state with the program counter already advanced (spec/10_state.md R24). -/

namespace Sys2Proof.Machine

/-- R120: the service that v0 selects; a system call saves nothing and comes back by itself (spec/60_exceptions.md
R232). -/
def execSyscall (s : State) : Result := s.finish (service (s.advance 1))

/-- R121: only the program counter advances. -/
def execNop (s : State) : Result := .next (s.advance 1)

end Sys2Proof.Machine
end

