-- ==== Sys2Proof/Machine/ThreeByte.lean ====
section
/-! DEFINITION. The three-byte instructions (spec/42_three_byte.md R160 to R171). Each writes `rd` and all four flags. -/

namespace Sys2Proof.Machine

/-- The form `rd, rs, rt`: both operands are registers (R160). -/
def computeRegisters (op : Compute) (rd rs rt : Reg) (s : State) : Result :=
  let t := s.advance 3
  .next (t.compute op rd (t.getReg rs) (t.getReg rt))

/-- The form `rd, rs, shamt`: the right operand is the shift amount field (spec/30_encoding.md R88). -/
def computeShamt (op : Compute) (rd rs : Reg) (shamt : Nat) (s : State) : Result :=
  let t := s.advance 3
  .next (t.compute op rd (t.getReg rs) (BitVec.ofNat 32 shamt))

/-- R161: `x[rd] <- x[rs] & x[rt]`. -/
def execAnd (rd rs rt : Reg) (s : State) : Result := computeRegisters .and rd rs rt s

/-- R162: `x[rd] <- x[rs] | x[rt]`. -/
def execOr (rd rs rt : Reg) (s : State) : Result := computeRegisters .or rd rs rt s

/-- R163: `x[rd] <- x[rs] ^ x[rt]`. -/
def execXor (rd rs rt : Reg) (s : State) : Result := computeRegisters .xor rd rs rt s

/-- R164: shift left logical by `shamt`. -/
def execSll (rd rs : Reg) (shamt : Nat) (s : State) : Result := computeShamt .sll rd rs shamt s

/-- R165: shift right logical by `shamt`. -/
def execSrl (rd rs : Reg) (shamt : Nat) (s : State) : Result := computeShamt .srl rd rs shamt s

/-- R166: shift right arithmetic by `shamt`. -/
def execSra (rd rs : Reg) (shamt : Nat) (s : State) : Result := computeShamt .sra rd rs shamt s

/-- R167 (spec/90_conflicts.md C3): shift left logical by `x[rt][4:0]`. -/
def execSllv (rd rs rt : Reg) (s : State) : Result := computeRegisters .sllv rd rs rt s

/-- R168: shift right logical by `x[rt][4:0]`. -/
def execSrlv (rd rs rt : Reg) (s : State) : Result := computeRegisters .srlv rd rs rt s

/-- R169: shift right arithmetic by `x[rt][4:0]`. -/
def execSrav (rd rs rt : Reg) (s : State) : Result := computeRegisters .srav rd rs rt s

/-- R170: `x[rd] <- x[rs] + x[rt]`, wrapping. -/
def execAdd (rd rs rt : Reg) (s : State) : Result := computeRegisters .add rd rs rt s

/-- R171: `x[rd] <- x[rs] - x[rt]`, wrapping. -/
def execSub (rd rs rt : Reg) (s : State) : Result := computeRegisters .sub rd rs rt s

end Sys2Proof.Machine
end

