-- ==== Sys2Proof/Machine/TwoByte.lean ====
section
/-! DEFINITION. The two-byte instructions (spec/41_two_byte.md R130 to R145). -/

namespace Sys2Proof.Machine

/-! ## Move and jump -/

/-- R130: `x[rd] <- x[rs]`. -/
def execMov (rd rs : Reg) (s : State) : Result :=
  let t := s.advance 2
  .next (t.setReg rd (t.getReg rs))

/-- R131: `pc <- x[rd]`. -/
def execJr (rd : Reg) (s : State) : Result :=
  let t := s.advance 2
  .next (t.setReg Reg.pc (t.getReg rd))

/-! ## Loads and stores -/

/-- A load: `n` bytes at `x[rs]`, the value made a word by `widen`, then `rd` written. A read that faults writes
nothing (R132, R134, R136). -/
def State.loadInto (t : State) (rd rs : Reg) (n : Nat) (widen : Word → Word) : Except Cause State :=
  match t.memRead (t.getReg rs) n with
  | .error cause => .error cause
  | .ok v => .ok (t.setReg rd (widen v))

/-- R132: `x[rd] <- MemRead(x[rs], 4)`. -/
def execLw (rd rs : Reg) (s : State) : Result :=
  let t := s.advance 2
  s.finish (t.loadInto rd rs 4 id)

/-- R133: `MemWrite(x[rd], 4, x[rs])`. -/
def execSw (rs rd : Reg) (s : State) : Result :=
  let t := s.advance 2
  s.finish (t.memWrite (t.getReg rd) 4 (t.getReg rs))

/-- R134: one byte, extended as U says. -/
def execLb (rd rs : Reg) (s : State) : Result :=
  let t := s.advance 2
  s.finish (t.loadInto rd rs 1 (extendNarrow 8 t.u))

/-- R135: `MemWrite(x[rd], 1, x[rs])`. -/
def execSb (rs rd : Reg) (s : State) : Result :=
  let t := s.advance 2
  s.finish (t.memWrite (t.getReg rd) 1 (t.getReg rs))

/-- R136: two bytes, extended as U says. -/
def execLh (rd rs : Reg) (s : State) : Result :=
  let t := s.advance 2
  s.finish (t.loadInto rd rs 2 (extendNarrow 16 t.u))

/-- R137: `MemWrite(x[rd], 2, x[rs])`. -/
def execSh (rs rd : Reg) (s : State) : Result :=
  let t := s.advance 2
  s.finish (t.memWrite (t.getReg rd) 2 (t.getReg rs))

/-! ## Arithmetic -/

/-- R138 (spec/90_conflicts.md C4): `x[rd] <- ~x[rs]`, and the flags. -/
def execNot (rd rs : Reg) (s : State) : Result :=
  let t := s.advance 2
  .next (t.compute .not rd (t.getReg rs) 0)

/-- R139: the product of `x[rd]` and `x[rs]` in v0 (low) and v1 (high), and the flags. -/
def execMul (rd rs : Reg) (s : State) : Result :=
  let t := s.advance 2
  .next (t.computePair .mul (t.getReg rd) (t.getReg rs))

/-- R140: `x[rd]` divided by `x[rs]`, quotient in v0 and remainder in v1, and the flags; a zero divisor faults. -/
def execDiv (rd rs : Reg) (s : State) : Result :=
  let t := s.advance 2
  if t.getReg rs = 0 then s.raise .divideByZero
  else .next (t.computePair .div (t.getReg rd) (t.getReg rs))

/-! ## Stack -/

/-- R141: where `push` stores: at sp, before sp moves. -/
def pushAddress (t : State) : Word := t.getReg Reg.sp

/-- R142 (spec/90_conflicts.md C5): where `pop` reads, and where sp ends: 4 above sp. -/
def popAddress (t : State) : Word := t.getReg Reg.sp + 4

/-- R141: store `x[rs]` at sp, then move sp down by 4. -/
def execPush (rs : Reg) (s : State) : Result :=
  let t := s.advance 2
  s.finish
    (match t.memWrite (pushAddress t) 4 (t.getReg rs) with
     | .error cause => .error cause
     | .ok t' => .ok (t'.setReg Reg.sp (pushAddress t - 4)))

/-- R142: move sp up by 4, read there, then write `rd`, last. -/
def execPop (rd : Reg) (s : State) : Result :=
  let t := s.advance 2
  s.finish
    (match t.memRead (popAddress t) 4 with
     | .error cause => .error cause
     | .ok v => .ok ((t.setReg Reg.sp (popAddress t)).setReg rd v))

/-! ## Special-register access -/

/-- R143: `x[rd] <- zext_8(SR.flags)`. -/
def execPopf (rd : Reg) (s : State) : Result :=
  let t := s.advance 2
  .next (t.setReg rd (t.sr.flags.setWidth 32))

/-- R144: `x[rd] <- zext_4(SR.mod)`. -/
def execPopm (rd : Reg) (s : State) : Result :=
  let t := s.advance 2
  .next (t.setReg rd (t.sr.modifiers.setWidth 32))

/-- R145: `SR.mod <- x[rs][3:0]`. -/
def execPushm (rs : Reg) (s : State) : Result :=
  let t := s.advance 2
  .next (t.setModifiers ((t.getReg rs).setWidth 4))

end Sys2Proof.Machine
end

