-- ==== Sys2Proof/Syntax.lean ====
section
/-! DEFINITION. The 32 instructions (spec/30_encoding.md R95, R111), one constructor per row of spec/opcode_table.json.
The arguments of a constructor are the operands of the usage line, in its order, under the names of the format's
fields (R89): a field an instruction does not use is no argument (R101: it is the same instruction for every value of
such a field). The 16-bit immediate of `li` and `lui` is a pattern of bits (R87); the immediate of `beq` is the signed
byte offset itself (R87, R110); the shift amount is a number (R88). -/

namespace Sys2Proof

inductive Instr where
  -- one byte (R82)
  | syscall
  | nop
  -- two bytes (R83)
  | mov   (rd rs : Reg)
  | jr    (rd : Reg)
  | lw    (rd rs : Reg)
  /-- `rs` holds the data, `rd` the address (R89, R133). -/
  | sw    (rs rd : Reg)
  | lb    (rd rs : Reg)
  | sb    (rs rd : Reg)
  | lh    (rd rs : Reg)
  | sh    (rs rd : Reg)
  | not   (rd rs : Reg)
  /-- Both operands are sources (R139). -/
  | mul   (rd rs : Reg)
  /-- `rd` is the dividend, `rs` the divisor (R140). -/
  | div   (rd rs : Reg)
  | push  (rs : Reg)
  | pop   (rd : Reg)
  | popf  (rd : Reg)
  | popm  (rd : Reg)
  | pushm (rs : Reg)
  -- three bytes (R84)
  | and   (rd rs rt : Reg)
  | or    (rd rs rt : Reg)
  | xor   (rd rs rt : Reg)
  | sll   (rd rs : Reg) (shamt : Nat)
  | srl   (rd rs : Reg) (shamt : Nat)
  | sra   (rd rs : Reg) (shamt : Nat)
  | sllv  (rd rs rt : Reg)
  | srlv  (rd rs rt : Reg)
  | srav  (rd rs rt : Reg)
  | add   (rd rs rt : Reg)
  | sub   (rd rs rt : Reg)
  -- four bytes (R85)
  | li    (rd : Reg) (immed : BitVec 16)
  | lui   (rd : Reg) (immed : BitVec 16)
  | beq   (rd rs : Reg) (immed : Int)
  deriving DecidableEq, Repr

end Sys2Proof
end

