-- ==== Sys2Proof/Machine/Dispatch.lean ====
section
/-! DEFINITION. One arm per instruction. -/

namespace Sys2Proof.Machine

def exec (i : Instr) (s : State) : Host.Outcome State Fault Refusal :=
  match i with
  | .syscall => Sys2Proof.Machine.execSyscall s
  | .nop => Sys2Proof.Machine.execNop s
  | .mov rd rs => Sys2Proof.Machine.execMov rd rs s
  | .jr rd => Sys2Proof.Machine.execJr rd s
  | .lw rd rs => Sys2Proof.Machine.execLw rd rs s
  | .sw rs rd => Sys2Proof.Machine.execSw rs rd s
  | .lb rd rs => Sys2Proof.Machine.execLb rd rs s
  | .sb rs rd => Sys2Proof.Machine.execSb rs rd s
  | .lh rd rs => Sys2Proof.Machine.execLh rd rs s
  | .sh rs rd => Sys2Proof.Machine.execSh rs rd s
  | .not rd rs => Sys2Proof.Machine.execNot rd rs s
  | .mul rd rs => Sys2Proof.Machine.execMul rd rs s
  | .div rd rs => Sys2Proof.Machine.execDiv rd rs s
  | .push rs => Sys2Proof.Machine.execPush rs s
  | .pop rd => Sys2Proof.Machine.execPop rd s
  | .popf rd => Sys2Proof.Machine.execPopf rd s
  | .popm rd => Sys2Proof.Machine.execPopm rd s
  | .pushm rs => Sys2Proof.Machine.execPushm rs s
  | .and rd rs rt => Sys2Proof.Machine.execAnd rd rs rt s
  | .or rd rs rt => Sys2Proof.Machine.execOr rd rs rt s
  | .xor rd rs rt => Sys2Proof.Machine.execXor rd rs rt s
  | .sll rd rs shamt => Sys2Proof.Machine.execSll rd rs shamt s
  | .srl rd rs shamt => Sys2Proof.Machine.execSrl rd rs shamt s
  | .sra rd rs shamt => Sys2Proof.Machine.execSra rd rs shamt s
  | .sllv rd rs rt => Sys2Proof.Machine.execSllv rd rs rt s
  | .srlv rd rs rt => Sys2Proof.Machine.execSrlv rd rs rt s
  | .srav rd rs rt => Sys2Proof.Machine.execSrav rd rs rt s
  | .add rd rs rt => Sys2Proof.Machine.execAdd rd rs rt s
  | .sub rd rs rt => Sys2Proof.Machine.execSub rd rs rt s
  | .li rd immed => Sys2Proof.Machine.execLi rd immed s
  | .lui rd immed => Sys2Proof.Machine.execLui rd immed s
  | .beq rd rs immed => Sys2Proof.Machine.execBeq rd rs immed s

end Sys2Proof.Machine
end

