-- ==== Sys2Proof/WellFormed.lean ====
section
/-! DEFINITION. Which instructions an encoding can express. The register fields and the 16-bit pattern fit by their types;
the two operands kept as numbers are checked here: the shift amount (spec/30_encoding.md R88, 0 to 15) and the branch
offset (R87, -32768 to +32767). -/

namespace Sys2Proof

/-- R88: `shamt` is a 4-bit field. -/
def shamtFits (n : Nat) : Bool := decide (n < 16)

/-- R87: the offset of `beq` is a signed 16-bit number. -/
def offsetFits (off : Int) : Bool := decide (-32768 ≤ off) && decide (off ≤ 32767)

/-- The instruction has an encoding. -/
def Instr.wellFormed : Instr → Bool
  | .sll _ _ n => shamtFits n
  | .srl _ _ n => shamtFits n
  | .sra _ _ n => shamtFits n
  | .beq _ _ off => offsetFits off
  | .syscall => true
  | .nop => true
  | .mov _ _ => true
  | .jr _ => true
  | .lw _ _ => true
  | .sw _ _ => true
  | .lb _ _ => true
  | .sb _ _ => true
  | .lh _ _ => true
  | .sh _ _ => true
  | .not _ _ => true
  | .mul _ _ => true
  | .div _ _ => true
  | .push _ => true
  | .pop _ => true
  | .popf _ => true
  | .popm _ => true
  | .pushm _ => true
  | .and _ _ _ => true
  | .or _ _ _ => true
  | .xor _ _ _ => true
  | .sllv _ _ _ => true
  | .srlv _ _ _ => true
  | .srav _ _ _ => true
  | .add _ _ _ => true
  | .sub _ _ _ => true
  | .li _ _ => true
  | .lui _ _ => true

end Sys2Proof
end

