-- ==== Sys2Proof/Decode.lean ====
section
/-! DEFINITION. Decoding (spec/30_encoding.md R80 to R103): the first byte alone tells the length and the instruction
(R81, R90, R95); the later bytes hold only operands. Then the encoder, from the same formats. -/

namespace Sys2Proof

/-! ## The first byte -/

/-- R81: the length told by the marker bits of `B0`, also of the two lengths that have no format; none where the marker
is of no format (`10xxxxxx` and `1111111x`). -/
def markerLength (b0 : Byte) : Option Nat :=
  if b0.extractLsb' 7 1 = 0b0#1 then some 1
  else if b0.extractLsb' 6 2 = 0b10#2 then none
  else if b0.extractLsb' 5 3 = 0b110#3 then some 2
  else if b0.extractLsb' 4 4 = 0b1110#4 then some 3
  else if b0.extractLsb' 3 5 = 0b11110#5 then some 4
  else if b0.extractLsb' 2 6 = 0b111110#6 then some 5
  else if b0.extractLsb' 1 7 = 0b1111110#7 then some 6
  else none

/-- Why a first byte selects no instruction (R96). -/
inductive Illegal where
  /-- The marker is of no format: `10xxxxxx` or `1111111x`. -/
  | noMarker
  /-- The five- and six-byte formats: "Currently no described format" (R86). -/
  | noFormat (length : Nat)
  /-- A defined format, with an opcode that is not listed or whose row is empty (R100, R172, R193). -/
  | noOpcode (length : Nat)
  deriving DecidableEq, Repr

/-- What a legal first byte selects: the length and the instruction, still without its operands. -/
inductive Format where
  /-- R82. -/
  | one   (i : Instr)
  /-- R83: `rd`, `rs`. -/
  | two   (mk : Reg → Reg → Instr)
  /-- R84: `rd`, `rs`, `rt`, `shamt`. -/
  | three (mk : Reg → Reg → Reg → Nat → Instr)
  /-- R85: `rd`, `rs`, the 16-bit immediate. -/
  | four  (mk : Reg → Reg → BitVec 16 → Instr)

/-- The length of an instruction of the format, its first byte included. -/
def Format.length : Format → Nat
  | .one _ => 1
  | .two _ => 2
  | .three _ => 3
  | .four _ => 4

/-- R95, length 1: the opcode is `B0[6:0]`. -/
def oneByteTable : List (BitVec 7 × Instr) :=
  [(0b0000000, .syscall),
   (0b0000001, .nop)]

/-- R95, length 2: the opcode is `B0[4:0]`. A field the instruction does not use is dropped (R89). -/
def twoByteTable : List (BitVec 5 × (Reg → Reg → Instr)) :=
  [(0b00000, fun rd rs => .mov rd rs),
   (0b00001, fun rd _  => .jr rd),
   (0b00010, fun rd rs => .lw rd rs),
   (0b00011, fun rd rs => .sw rs rd),
   (0b00100, fun rd rs => .lb rd rs),
   (0b00101, fun rd rs => .sb rs rd),
   (0b00110, fun rd rs => .lh rd rs),
   (0b00111, fun rd rs => .sh rs rd),
   (0b01000, fun rd rs => .not rd rs),
   (0b01001, fun rd rs => .mul rd rs),
   (0b01010, fun rd rs => .div rd rs),
   (0b01011, fun _  rs => .push rs),
   (0b01100, fun rd _  => .pop rd),
   (0b01101, fun rd _  => .popf rd),
   (0b01110, fun rd _  => .popm rd),
   (0b01111, fun _  rs => .pushm rs)]

/-- R95, length 3: the opcode is `B0[3:0]`. -/
def threeByteTable : List (BitVec 4 × (Reg → Reg → Reg → Nat → Instr)) :=
  [(0b0000, fun rd rs rt _ => .and rd rs rt),
   (0b0001, fun rd rs rt _ => .or rd rs rt),
   (0b0010, fun rd rs rt _ => .xor rd rs rt),
   (0b0100, fun rd rs _ sh => .sll rd rs sh),
   (0b0101, fun rd rs _ sh => .srl rd rs sh),
   (0b0110, fun rd rs _ sh => .sra rd rs sh),
   (0b0111, fun rd rs rt _ => .sllv rd rs rt),
   (0b1000, fun rd rs rt _ => .srlv rd rs rt),
   (0b1001, fun rd rs rt _ => .srav rd rs rt),
   (0b1010, fun rd rs rt _ => .add rd rs rt),
   (0b1011, fun rd rs rt _ => .sub rd rs rt)]

/-- R95, length 4: the opcode is `B0[2:0]`. The offset of `beq` is the immediate read as a signed number (R87). -/
def fourByteTable : List (BitVec 3 × (Reg → Reg → BitVec 16 → Instr)) :=
  [(0b000, fun rd _  imm => .li rd imm),
   (0b001, fun rd _  imm => .lui rd imm),
   (0b010, fun rd rs imm => .beq rd rs imm.toInt)]

/-- The entry a table has for an opcode, as a format; an opcode without an entry is illegal (R100). -/
def selectRow {n : Nat} {α : Type} (length : Nat) (mk : α → Format) (table : List (BitVec n × α)) (opcode : BitVec n) :
    Except Illegal Format :=
  match table.lookup opcode with
  | some row => .ok (mk row)
  | none => .error (.noOpcode length)

/-- R90 steps 1 and 2, R96: what `B0` selects, from `B0` alone. -/
def formatOf (b0 : Byte) : Except Illegal Format :=
  match markerLength b0 with
  | some 1 => selectRow 1 .one oneByteTable (b0.extractLsb' 0 7)
  | some 2 => selectRow 2 .two twoByteTable (b0.extractLsb' 0 5)
  | some 3 => selectRow 3 .three threeByteTable (b0.extractLsb' 0 4)
  | some 4 => selectRow 4 .four fourByteTable (b0.extractLsb' 0 3)
  | some n => .error (.noFormat n)
  | none => .error .noMarker

/-! ## The operand bytes -/

/-- Bits 7:4 of a byte as a register number (`rd` in `B1`, `rt` in `B2`). -/
def highReg (b : Byte) : Reg := (b.extractLsb' 4 4).toFin

/-- Bits 3:0 of a byte as a register number (`rs` in `B1`). -/
def lowReg (b : Byte) : Reg := (b.extractLsb' 0 4).toFin

/-- R88: `shamt = B2[3:0]`, an unsigned number. -/
def shamtOf (b2 : Byte) : Nat := (b2.extractLsb' 0 4).toNat

/-- R87: `imm16 = {B2, B3}`. -/
def immOf (b2 b3 : Byte) : BitVec 16 := b2 ++ b3

/-- Why a list of bytes does not begin with an instruction. -/
inductive Reject where
  /-- There is no first byte. -/
  | empty
  /-- The first byte selects no instruction (R96, R100). -/
  | illegal (b0 : Byte) (why : Illegal)
  /-- The first byte selects an instruction of `length` bytes and the list ends before its last byte. -/
  | truncated (b0 : Byte) (length : Nat)
  deriving DecidableEq, Repr

/-- R90: the instruction at the head of a list of bytes, and the bytes after it. Legality is decided from `B0` before
any further byte is looked at. -/
def decode : List Byte → Except Reject (Instr × List Byte)
  | [] => .error .empty
  | b0 :: rest =>
    match formatOf b0 with
    | .error why => .error (.illegal b0 why)
    | .ok (.one i) => .ok (i, rest)
    | .ok (.two mk) =>
      match rest with
      | b1 :: rest => .ok (mk (highReg b1) (lowReg b1), rest)
      | _ => .error (.truncated b0 2)
    | .ok (.three mk) =>
      match rest with
      | b1 :: b2 :: rest => .ok (mk (highReg b1) (lowReg b1) (highReg b2) (shamtOf b2), rest)
      | _ => .error (.truncated b0 3)
    | .ok (.four mk) =>
      match rest with
      | b1 :: b2 :: b3 :: rest => .ok (mk (highReg b1) (lowReg b1) (immOf b2 b3), rest)
      | _ => .error (.truncated b0 4)

/-! ## The encoder -/

/-- A register number as a 4-bit field. -/
def regField (r : Reg) : BitVec 4 := BitVec.ofFin r

/-- R82: marker `0` and a 7-bit opcode. -/
def encodeOne (opcode : BitVec 7) : List Byte :=
  [0b0#1 ++ opcode]

/-- R83: marker `110`, a 5-bit opcode, then `rd`, `rs`. -/
def encodeTwo (opcode : BitVec 5) (rd rs : Reg) : List Byte :=
  [0b110#3 ++ opcode, regField rd ++ regField rs]

/-- R84: marker `1110`, a 4-bit opcode, then `rd`, `rs`, `rt`, `shamt`. -/
def encodeThree (opcode : BitVec 4) (rd rs rt : Reg) (shamt : Nat) : List Byte :=
  [0b1110#4 ++ opcode, regField rd ++ regField rs, regField rt ++ BitVec.ofNat 4 shamt]

/-- R85: marker `11110`, a 3-bit opcode, then `rd`, `rs`, the immediate's high byte and its low byte. -/
def encodeFour (opcode : BitVec 3) (rd rs : Reg) (imm : BitVec 16) : List Byte :=
  [0b11110#5 ++ opcode, regField rd ++ regField rs, imm.extractLsb' 8 8, imm.extractLsb' 0 8]

/-- The bytes an assembler emits for an instruction (R82 to R89, R95): 0 in a field the instruction does not use. -/
def encode : Instr → List Byte
  | .syscall       => encodeOne 0b0000000
  | .nop           => encodeOne 0b0000001
  | .mov rd rs     => encodeTwo 0b00000 rd rs
  | .jr rd         => encodeTwo 0b00001 rd 0
  | .lw rd rs      => encodeTwo 0b00010 rd rs
  | .sw rs rd      => encodeTwo 0b00011 rd rs
  | .lb rd rs      => encodeTwo 0b00100 rd rs
  | .sb rs rd      => encodeTwo 0b00101 rd rs
  | .lh rd rs      => encodeTwo 0b00110 rd rs
  | .sh rs rd      => encodeTwo 0b00111 rd rs
  | .not rd rs     => encodeTwo 0b01000 rd rs
  | .mul rd rs     => encodeTwo 0b01001 rd rs
  | .div rd rs     => encodeTwo 0b01010 rd rs
  | .push rs       => encodeTwo 0b01011 0 rs
  | .pop rd        => encodeTwo 0b01100 rd 0
  | .popf rd       => encodeTwo 0b01101 rd 0
  | .popm rd       => encodeTwo 0b01110 rd 0
  | .pushm rs      => encodeTwo 0b01111 0 rs
  | .and rd rs rt  => encodeThree 0b0000 rd rs rt 0
  | .or rd rs rt   => encodeThree 0b0001 rd rs rt 0
  | .xor rd rs rt  => encodeThree 0b0010 rd rs rt 0
  | .sll rd rs sh  => encodeThree 0b0100 rd rs 0 sh
  | .srl rd rs sh  => encodeThree 0b0101 rd rs 0 sh
  | .sra rd rs sh  => encodeThree 0b0110 rd rs 0 sh
  | .sllv rd rs rt => encodeThree 0b0111 rd rs rt 0
  | .srlv rd rs rt => encodeThree 0b1000 rd rs rt 0
  | .srav rd rs rt => encodeThree 0b1001 rd rs rt 0
  | .add rd rs rt  => encodeThree 0b1010 rd rs rt 0
  | .sub rd rs rt  => encodeThree 0b1011 rd rs rt 0
  | .li rd imm     => encodeFour 0b000 rd 0 imm
  | .lui rd imm    => encodeFour 0b001 rd 0 imm
  | .beq rd rs off => encodeFour 0b010 rd rs (BitVec.ofInt 16 off)

/-- The length `L` of an instruction in bytes (R81): what its first byte tells. -/
def Instr.length : Instr → Nat
  | .syscall | .nop => 1
  | .mov _ _ | .jr _ | .lw _ _ | .sw _ _ | .lb _ _ | .sb _ _ | .lh _ _ | .sh _ _ | .not _ _ | .mul _ _ | .div _ _
  | .push _ | .pop _ | .popf _ | .popm _ | .pushm _ => 2
  | .and _ _ _ | .or _ _ _ | .xor _ _ _ | .sll _ _ _ | .srl _ _ _ | .sra _ _ _ | .sllv _ _ _ | .srlv _ _ _
  | .srav _ _ _ | .add _ _ _ | .sub _ _ _ => 3
  | .li _ _ | .lui _ _ | .beq _ _ _ => 4

/-! ## The table's numbering -/

/-- The longest instruction, in bytes (R7). -/
def maxLength : Nat := 4

/-- The bytes of an instruction given as one number of `nbits` bits, as spec/opcode_table.json gives `match` and `fixed`:
"read as one big number with `B0` as its most significant byte" (spec/30_encoding.md, preamble). Bytes past the number
are 0. Log 6. -/
def tableBytes (nbits w : Nat) : List Byte :=
  let n := nbits / 8
  (List.range n).map (fun k => BitVec.ofNat 8 (w >>> (8 * (n - 1 - k)))) ++ List.replicate (maxLength - n) 0

/-- The instruction the decoder reads from an instruction of the table's numbering. -/
def decodeTableWord (nbits w : Nat) : Option Instr :=
  match decode (tableBytes nbits w) with
  | .ok (i, _) => some i
  | .error _ => none

end Sys2Proof
end

