-- ==== Sys2Proof/Machine/Fetch.lean ====
section
/-! DEFINITION. Fetching an instruction (spec/20_memory.md R58, spec/70_reset_and_hazards.md R255), and placing one where
the machine fetches (log 5). -/

namespace Sys2Proof.Machine

/-- R58: `n` bytes for instruction fetch, ascending from `addr`; the first unmapped one raises `FetchFault`. -/
def State.fetchBytes (s : State) (addr : Word) (n : Nat) : Except Cause (List Byte) :=
  s.readBytes .fetchFault addr n

/-- R255, R231: fetch `B0`, decide its legality, fetch the other bytes, decode. -/
def State.fetchInstr (s : State) : Except Cause Instr :=
  match s.fetchBytes s.pc 1 with
  | .error cause => .error cause
  | .ok first =>
    let b0 := first.headD 0
    match formatOf b0 with
    | .error _ => .error (.illegalInstruction b0)
    | .ok format =>
      match s.fetchBytes (s.pc + 1) (format.length - 1) with
      | .error cause => .error cause
      | .ok operands =>
        match decode (b0 :: operands) with
        | .error _ => .error (.illegalInstruction b0)   -- not reached: `B0` is legal and no byte is missing
        | .ok (i, _) => .ok i

/-- The bytes of an instruction placed at the program counter, and the machine running. -/
def State.place (s : State) (bs : List Byte) : State :=
  (s.setMem (s.mem.storeBytes s.pc bs)).setStatus .running

end Sys2Proof.Machine
end

