-- ==== Sys2Proof/Machine/Step.lean ====
section
/-! DEFINITION. One step of the machine (spec/70_reset_and_hazards.md R255), and placing an instruction for it. -/

namespace Sys2Proof.Machine

/-- R255: a running machine fetches, decodes and executes one instruction, or takes the fault of its fetch; a machine
whose status is terminal has no step (R256; log 4). -/
def step (s : State) : Host.Outcome State Fault Refusal :=
  match s.status with
  | .running =>
    match s.fetchInstr with
    | .error cause => s.raise cause
    | .ok i => exec i s
  | .halted code => .fault (.halted code)
  | .faulted cause a => .fault (.faulted cause a)

/-- The instruction given in the numbering of spec/opcode_table.json, stored where `step` fetches next, on a running
machine (log 5, log 6). -/
def State.withFetchWord (s : State) (nbits w : Nat) : State := s.place (tableBytes nbits w)

end Sys2Proof.Machine
end

