-- ==== Sys2Proof/Safety.lean ====
section
/-! DEFINITION. What a state must satisfy to be one the machine can be in, and what a safe run is. -/

namespace Sys2Proof.Machine

/-- spec/10_state.md R36: memory is in canonical form and lists bytes at mapped addresses only. -/
def State.memOk (s : State) : Bool := s.mem.wf && s.mem.all (fun c => isMapped s.params (BitVec.ofNat 32 c.1))

/-- R30, R33, R35: the reserved flag bits, the mode and the unused section are 0. -/
def SpecialRegister.reservedClear (r : SpecialRegister) : Bool :=
  decide (r.unused = 0) && decide (r.mode = 0) && decide (r.flags.extractLsb' 4 4 = 0)

/-- R22: the place of register 0 holds 0. -/
def State.zeroOk (s : State) : Bool := decide (s.zeroPlace = 0)

/-- The invariant of the machine: memory, the special register's reserved bits, register 0. -/
def State.Inv (s : State) : Prop := s.memOk = true ∧ s.sr.reservedClear = true ∧ s.zeroOk = true

/-- A safe state has not faulted (spec/70_reset_and_hazards.md R256: a faulted run "has no result"). -/
def State.Safe (s : State) : Prop := ∀ cause a, s.status ≠ .faulted cause a

end Sys2Proof.Machine
end

