-- ==== Sys2Proof/Certificates/Slice0/Obligations.lean ====
section
/-! DEFINITION. The statements for the provers, from the numbered rules of spec/. The first part names, in the spec's own
terms, what the statements speak of: what a register reads during an instruction, what stays the same, the bytes of a
datum. Registers are read through `getReg` and memory through `byteAt`, the model's reads of one register and one byte. -/

namespace Sys2Proof.Claims

open Machine

/-! ## Registers -/

/-- R24: what register `q` reads while an instruction of `n` bytes executes in the step that begins in `s`: the program
counter reads as the address of the next instruction. -/
def seen (s : State) (n : Nat) (q : Reg) : Word :=
  if q = 4 then s.getReg 4 + BitVec.ofNat 32 n else s.getReg q

/-- The registers of `t` are those of `s` after an instruction of `n` bytes that makes the given writes (a later write
stands first, R17): register 0 reads 0 (R22), a write to register 4 overrides the advance (R25). -/
def RegsAre (s t : State) (n : Nat) (writes : List (Reg × Word)) : Prop :=
  ∀ q : Reg, t.getReg q = if q = 0 then 0 else (writes.lookup q).getD (seen s n q)

/-- U (R33), bit 0 of the modifiers section. -/
def U (s : State) : Bool := s.sr.modifiers.getLsbD 0

/-- R16: `{0, 0, 0, 0, z, c, s, o}`. -/
def flagWord (z c s o : Bool) : BitVec 8 :=
  BitVec.ofNat 8 (8 * z.toNat + 4 * c.toNat + 2 * s.toNat + o.toNat)

/-! ## Frames -/

/-- The break, the output, the oracle's position and the status are these, and the parameters are the same. -/
def HostState (s t : State) (brk : Word) (out : List Event) (pos : Nat) (status : Status) : Prop :=
  t.brk = brk ∧ t.out = out ∧ t.oraclePos = pos ∧ t.status = status ∧ t.params = s.params

/-- None of them changes. -/
def HostSame (s t : State) : Prop := HostState s t s.brk s.out s.oraclePos s.status

/-- Every byte of memory is unchanged. -/
def MemSame (s t : State) : Prop := ∀ a, t.byteAt a = s.byteAt a

/-- Every byte of memory outside the `n` bytes at `addr` is unchanged. -/
def MemSameOutside (s t : State) (addr : Word) (n : Nat) : Prop :=
  ∀ a, (∀ k < n, a ≠ addr + BitVec.ofNat 32 k) → t.byteAt a = s.byteAt a

/-- An instruction of `n` bytes that writes these registers and nothing else. -/
def OnlyRegs (s t : State) (n : Nat) (writes : List (Reg × Word)) : Prop :=
  RegsAre s t n writes ∧ t.sr = s.sr ∧ MemSame s t ∧ HostSame s t

/-- An instruction of `n` bytes that writes these registers and the whole flags section, and nothing else. -/
def RegsAndFlags (s t : State) (n : Nat) (writes : List (Reg × Word)) (flags : BitVec 8) : Prop :=
  RegsAre s t n writes ∧ t.sr = { s.sr with flags := flags } ∧ MemSame s t ∧ HostSame s t

/-- R15, R220: `s` with the status `Faulted(cause, a)`, `a` the address of the instruction. -/
def faultedAs (s : State) (cause : Cause) : State := { s with status := .faulted cause (s.getReg 4) }

/-! ## Memory -/

/-- The `n` bytes at `addr` are mapped (R51). -/
def AllMapped (s : State) (addr : Word) (n : Nat) : Prop := ∀ k < n, s.mapped (addr + BitVec.ofNat 32 k) = true

/-- `x` is the lowest-indexed unmapped byte of the `n` bytes at `addr` (R56, R57). -/
def FirstUnmapped (s : State) (addr : Word) (n : Nat) (x : Word) : Prop :=
  ∃ k < n, x = addr + BitVec.ofNat 32 k ∧ s.mapped x = false ∧ AllMapped s addr k

/-- R55, R56: the 32-bit value at `a`. -/
def wordAt (s : State) (a : Word) : Word :=
  match s.params.byteOrder with
  | .big => s.byteAt a ++ s.byteAt (a + 1) ++ s.byteAt (a + 2) ++ s.byteAt (a + 3)
  | .little => s.byteAt (a + 3) ++ s.byteAt (a + 2) ++ s.byteAt (a + 1) ++ s.byteAt a

/-- R55, R56: the 16-bit value at `a`. -/
def halfAt (s : State) (a : Word) : BitVec 16 :=
  match s.params.byteOrder with
  | .big => s.byteAt a ++ s.byteAt (a + 1)
  | .little => s.byteAt (a + 1) ++ s.byteAt a

/-- R57: byte `k` of the low `n` bytes of `v` as memory holds them. -/
def datumByte (order : ByteOrder) (n : Nat) (v : Word) (k : Nat) : Byte :=
  match order with
  | .big => v.extractLsb' (8 * (n - 1 - k)) 8
  | .little => v.extractLsb' (8 * k) 8

/-! ## Encodings -/

/-- A byte made of two 4-bit fields, the first in bits 7:4. -/
def nibbles (hi lo : Fin 16) : Byte := BitVec.ofNat 8 (16 * hi.val + lo.val)

/-- R83: the two bytes `B0`, `{rd, rs}` are the instruction, for every value of both fields, and an assembler emits
`canon` as the second. -/
def TwoByteForm (b0 : Byte) (mk : Reg → Reg → Instr) (canon : Reg → Reg → Byte) : Prop :=
  ∀ rd rs, (∀ rest, decode (b0 :: nibbles rd rs :: rest) = .ok (mk rd rs, rest)) ∧
    encode (mk rd rs) = [b0, canon rd rs]

/-- R84: likewise the three bytes `B0`, `{rd, rs}`, `{rt, shamt}`. -/
def ThreeByteForm (b0 : Byte) (mk : Reg → Reg → Reg → Fin 16 → Instr) (canon : Reg → Fin 16 → Byte) : Prop :=
  ∀ rd rs rt sh, (∀ rest, decode (b0 :: nibbles rd rs :: nibbles rt sh :: rest) = .ok (mk rd rs rt sh, rest)) ∧
    encode (mk rd rs rt sh) = [b0, nibbles rd rs, canon rt sh]

/-- R85: likewise the four bytes `B0`, `{rd, rs}`, `immed[15:8]`, `immed[7:0]`. -/
def FourByteForm (b0 : Byte) (mk : Reg → Reg → BitVec 16 → Instr) (canon : Reg → Reg → Byte) : Prop :=
  ∀ rd rs imm,
    (∀ rest, decode (b0 :: nibbles rd rs :: imm.extractLsb' 8 8 :: imm.extractLsb' 0 8 :: rest)
        = .ok (mk rd rs imm, rest)) ∧
      encode (mk rd rs imm) = [b0, canon rd rs, imm.extractLsb' 8 8, imm.extractLsb' 0 8]

/-- R96: the length of the instruction a first byte selects; none for the 224 illegal ones. -/
def lengthOf (b0 : Byte) : Option Nat :=
  let n := b0.toNat
  if n ≤ 0x01 then some 1
  else if 0xC0 ≤ n ∧ n ≤ 0xCF then some 2
  else if (0xE0 ≤ n ∧ n ≤ 0xE2) ∨ (0xE4 ≤ n ∧ n ≤ 0xEB) then some 3
  else if 0xF0 ≤ n ∧ n ≤ 0xF2 then some 4
  else none

/-! ## Shapes of instruction -/

/-- A load of `n` bytes at `x[rs]` into `rd`: the value when all bytes are mapped, the fault otherwise. -/
def LoadRule (mk : Reg → Reg → Instr) (n : Nat) (value : State → Word → Word) : Prop :=
  ∀ (s : State) (rd rs : Reg),
    (AllMapped s (seen s 2 rs) n →
      ∃ t, exec (mk rd rs) s = .next t ∧ OnlyRegs s t 2 [(rd, value s (seen s 2 rs))]) ∧
    ∀ x, FirstUnmapped s (seen s 2 rs) n x → exec (mk rd rs) s = .next (faultedAs s (.memFault x .read))

/-- A store of the low `n` bytes of `x[rs]` at `x[rd]`: those bytes and no others, or the fault. -/
def StoreRule (mk : Reg → Reg → Instr) (n : Nat) : Prop :=
  ∀ (s : State) (rs rd : Reg),
    (AllMapped s (seen s 2 rd) n →
      ∃ t, exec (mk rs rd) s = .next t ∧ RegsAre s t 2 [] ∧ t.sr = s.sr ∧ HostSame s t ∧
        MemSameOutside s t (seen s 2 rd) n ∧
        (s.mem.wf = true → ∀ k < n,
          t.byteAt (seen s 2 rd + BitVec.ofNat 32 k) = datumByte s.params.byteOrder n (seen s 2 rs) k)) ∧
    ∀ x, FirstUnmapped s (seen s 2 rd) n x → exec (mk rs rd) s = .next (faultedAs s (.memFault x .write))

/-- A three-byte instruction on two registers, with the value and the flags of the two operands. -/
def RegisterRule (mk : Reg → Reg → Reg → Instr) (value : Word → Word → Word) (flags : Word → Word → BitVec 8) : Prop :=
  ∀ (s : State) (rd rs rt : Reg), ∃ t, exec (mk rd rs rt) s = .next t ∧
    RegsAndFlags s t 3 [(rd, value (seen s 3 rs) (seen s 3 rt))] (flags (seen s 3 rs) (seen s 3 rt))

/-- A shift by the `shamt` field. -/
def ShamtRule (mk : Reg → Reg → Nat → Instr) (value : Word → Nat → Word) : Prop :=
  ∀ (s : State) (rd rs : Reg) (sh : Fin 16), ∃ t, exec (mk rd rs sh.val) s = .next t ∧
    RegsAndFlags s t 3 [(rd, value (seen s 3 rs) sh.val)]
      (flagWord (value (seen s 3 rs) sh.val = 0) false (value (seen s 3 rs) sh.val).msb false)

/-- The flags of a result by `SetZS` (R16). -/
def zs (r : Word) : BitVec 8 := flagWord (r = 0) false r.msb false

/-! ## Sorts of instruction -/

/-- R32: the fourteen computing instructions. -/
def computes : Instr → Bool
  | .not _ _ | .mul _ _ | .div _ _ | .and _ _ _ | .or _ _ _ | .xor _ _ _ | .sll _ _ _ | .srl _ _ _ | .sra _ _ _
  | .sllv _ _ _ | .srlv _ _ _ | .srav _ _ _ | .add _ _ _ | .sub _ _ _ => true
  | _ => false

/-- R52: the instructions that may write memory. -/
def storesToMemory : Instr → Bool
  | .sw _ _ | .sb _ _ | .sh _ _ | .push _ | .syscall => true
  | _ => false

/-- The instructions that read the modifiers section, or write it (R34, R144, R145). -/
def usesModifiers : Instr → Bool
  | .mul _ _ | .div _ _ | .lb _ _ | .lh _ _ | .popm _ | .pushm _ | .syscall => true
  | _ => false

/-- R26: the registers an instruction may write, beside the program counter. -/
def mayWrite : Instr → List Reg
  | .mov rd _ | .lw rd _ | .lb rd _ | .lh rd _ | .not rd _ | .popf rd | .popm rd | .and rd _ _ | .or rd _ _
  | .xor rd _ _ | .sll rd _ _ | .srl rd _ _ | .sra rd _ _ | .sllv rd _ _ | .srlv rd _ _ | .srav rd _ _ | .add rd _ _
  | .sub rd _ _ | .li rd _ | .lui rd _ => [rd]
  | .pop rd => [rd, 2]
  | .push _ => [2]
  | .mul _ _ | .div _ _ => [6, 7]
  | .syscall => [6]
  | .nop | .jr _ | .sw _ _ | .sb _ _ | .sh _ _ | .pushm _ | .beq _ _ _ => []

/-- The state with the modifiers section replaced. -/
def withModifiers (s : State) (m : BitVec 4) : State := { s with sr := { s.sr with modifiers := m } }

/-- The next state of an answer changed; a fault or a refusal as it is. -/
def mapNext (f : State → State) : Result → Result
  | .next t => .next (f t)
  | .fault r => .fault r
  | .refused r => .refused r

end Sys2Proof.Claims

open Sys2Proof Sys2Proof.Machine Sys2Proof.Claims

/-! # Encoding -/

/-- R90: decoding what the encoder emits for an instruction gives the instruction back, with every operand, and leaves the
bytes after it. -/
def Obligations.DecodeOfEncodeIsTheInstruction : Prop :=
  ∀ (i : Instr) (rest : List Byte), i.wellFormed = true → decode (encode i ++ rest) = .ok (i, rest)

/-- R81, R88, R87: what the decoder gives is well formed, and it takes from the bytes as many as the instruction is long,
which the first byte alone tells. -/
def Obligations.DecodedIsWellFormedAndTakesItsLength : Prop :=
  ∀ (b0 : Byte) (bs rest : List Byte) (i : Instr), decode (b0 :: bs) = .ok (i, rest) →
    i.wellFormed = true ∧ lengthOf b0 = some i.length ∧
      ∃ operands, b0 :: bs = b0 :: operands ++ rest ∧ operands.length + 1 = i.length

/-- R96: the classification of all 256 first bytes. -/
def Obligations.FirstByteAloneSelects : Prop :=
  ∀ b0 : Byte, ((∃ f, formatOf b0 = .ok f) ↔ lengthOf b0 ≠ none) ∧
    ∀ f, formatOf b0 = .ok f → lengthOf b0 = some f.length

/-- Words written out bit by bit from the figures of R82 to R85 and the opcodes of R95, one or two a family. A sanity
statement. -/
def Obligations.WrittenOutWordsDecode : Prop :=
  decode [0b00000000] = .ok (.syscall, []) ∧
  decode [0b00000001] = .ok (.nop, []) ∧
  decode [0b11000011, 0b10011000] = .ok (.sw Reg.g0 Reg.g1, []) ∧
  decode [0b11001011, 0b11111000] = .ok (.push Reg.g0, []) ∧
  decode [0b11101011, 0b10011001, 0b10100000] = .ok (.sub Reg.g1 Reg.g1 Reg.g2, []) ∧
  decode [0b11100100, 0b10001001, 0b11110100] = .ok (.sll Reg.g0 Reg.g1 4, []) ∧
  decode [0b11110000, 0b10000000, 0b01010110, 0b01111000] = .ok (.li Reg.g0 0x5678, []) ∧
  decode [0b11110010, 0b00000000, 0b11111111, 0b11110010] = .ok (.beq Reg.zero Reg.zero (-14), []) ∧
  decode [0b11100011, 0, 0, 0] = .error (.illegal 0b11100011 (.noOpcode 3))

/-! # The step -/

/-- R255: a running machine whose bytes at the program counter are those of an instruction executes it; the step adds
nothing around `exec`, which advances the program counter itself. -/
def Obligations.StepExecutesTheDecodedInstruction : Prop :=
  ∀ (s : State) (bs : List Byte) (i : Instr), s.status = .running → decode bs = .ok (i, []) →
    (∀ (k : Nat) (h : k < bs.length), s.mapped (s.getReg 4 + BitVec.ofNat 32 k) = true ∧
      s.byteAt (s.getReg 4 + BitVec.ofNat 32 k) = bs[k]) →
    step s = exec i s

/-- R221: the first unmapped byte of the instruction being fetched, `B0` or a later one, raises `FetchFault`. -/
def Obligations.UnmappedInstructionByteIsFetchFault : Prop :=
  ∀ s : State, s.status = .running →
    (s.mapped (s.getReg 4) = false → step s = .next (faultedAs s (.fetchFault (s.getReg 4)))) ∧
    ∀ L x, lengthOf (s.byteAt (s.getReg 4)) = some L → s.mapped (s.getReg 4) = true →
      FirstUnmapped s (s.getReg 4) L x → step s = .next (faultedAs s (.fetchFault x))

/-- R222: a first byte that selects no instruction raises `IllegalInstruction`, whatever stands after it, mapped or
not. -/
def Obligations.IllegalFirstByteFaults : Prop :=
  ∀ s : State, s.status = .running → s.mapped (s.getReg 4) = true → lengthOf (s.byteAt (s.getReg 4)) = none →
    step s = .next (faultedAs s (.illegalInstruction (s.byteAt (s.getReg 4))))

/-- R15, R220: a step that ends in a fault changes nothing but the status, which holds the address of the faulting
instruction; and the status is terminal. -/
def Obligations.FaultChangesOnlyTheStatus : Prop :=
  ∀ (s t : State) (cause : Cause) (a : Word), step s = .next t → t.status = .faulted cause a →
    t = faultedAs s cause ∧ a = s.getReg 4 ∧ ∀ u, step t ≠ .next u

/-- R255: the machine has a step exactly when its status is `Running`: every byte sequence at the program counter leads a
running machine to a next state (a fault of the spec among them, log 4), and a halted or faulted one has none. -/
def Obligations.StepExactlyWhenRunning : Prop :=
  ∀ s : State, (∃ t, step s = .next t) ↔ s.status = .running

/-- R201: a step that halts the machine executed `syscall` with v0 = 0, and the exit code is g0. -/
def Obligations.OnlyExitHalts : Prop :=
  ∀ (s t : State) (code : Word), step s = .next t → t.status = .halted code →
    s.byteAt (s.getReg 4) = 0x00 ∧ s.getReg 6 = 0 ∧ code = s.getReg 8

/-- The invariant of the machine (canonical memory at mapped addresses only, reserved bits of the special register 0,
register 0 holding 0) is kept by every step from every state that has it. -/
def Obligations.StepKeepsInvariant : Prop :=
  ∀ s t : State, s.Inv → step s = .next t → t.Inv

/-- The invariant holds at reset. -/
def Obligations.ResetHasInvariant : Prop := State.reset.Inv

/-- The invariant holds of the machine as the loader starts it, for every choice the loader makes. -/
def Obligations.EveryLoadHasInvariant : Prop := ∀ c : Setup, (State.load c).Inv

/-- R51, R55: no step changes the mapped addresses, the byte order or the heap limit. (That they stand in the state is the
model's choice, log 1.) -/
def Obligations.StepKeepsParameters : Prop :=
  ∀ s t : State, step s = .next t → t.params = s.params

/-! # Reset -/

/-- R40: the value of every piece of state when the machine starts, for every choice of the loader's parameters. R40 gives
0x00 to every MAPPED byte not in `Image`; that `byteAt` reads 0x00 at an unmapped address too, which the third clause also
says, is the model's choice (log 14, DESIGN CHOICE), and no instruction sees it. -/
def Obligations.LoadGivesTheResetValues : Prop :=
  ∀ c : Setup,
    (∀ q : Reg, (State.load c).getReg q = if q = 4 then c.entry else if q = 2 then c.spInit else 0) ∧
    (State.load c).sr = { unused := 0, mode := 0, modifiers := 0, flags := 0 } ∧
    (∀ a : Word, (∀ b, (a.toNat, b) ∉ c.image) → (State.load c).byteAt a = 0x00) ∧
    ((c.image.map Prod.fst).Nodup → ∀ (a : Word) (b : Byte), (a.toNat, b) ∈ c.image →
      (State.load c).mapped a = true → (State.load c).byteAt a = b) ∧
    (State.load c).brk = c.brkInit ∧ (State.load c).out = [] ∧ (State.load c).status = .running

/-- The defaults of R8 at `State.reset`. That reset uses the defaults, with an empty image, is the model's choice
(log 2, log 5). -/
def Obligations.ResetUsesTheDefaults : Prop :=
  State.reset.getReg 4 = 0x00000000 ∧ State.reset.getReg 2 = 0x0000FFFC ∧ State.reset.brk = 0x00008000 ∧
    State.reset.params.heapLimit = 0x10000 ∧ State.reset.params.byteOrder = .big ∧
    ∀ a : Word, State.reset.mapped a = decide (a.toNat < 0x10000)

/-! # The special register -/

/-- R28: the places of the four sections in the one 32-bit register. -/
def Obligations.SpecialRegisterLayout : Prop :=
  ∀ r : SpecialRegister,
    r.word.extractLsb' 16 16 = r.unused ∧ r.word.extractLsb' 12 4 = r.mode ∧
      r.word.extractLsb' 8 4 = r.modifiers ∧ r.word.extractLsb' 0 8 = r.flags

/-- R32: every instruction that is not one of the fourteen computing ones leaves the flags unchanged. -/
def Obligations.OnlyComputingInstructionsWriteFlags : Prop :=
  ∀ (i : Instr) (s t : State), computes i = false → exec i s = .next t → t.sr.flags = s.sr.flags

/-- R29: the modifiers section is written by `pushm` alone, and no instruction reaches the mode and unused sections. -/
def Obligations.OnlyPushmWritesModifiers : Prop :=
  ∀ (i : Instr) (s t : State), exec i s = .next t →
    t.sr.unused = s.sr.unused ∧ t.sr.mode = s.sr.mode ∧
      ((∀ rs, i ≠ .pushm rs) → t.sr.modifiers = s.sr.modifiers)

/-- R34: U, and the rest of the modifiers section, changes nothing in any instruction but `mul`, `div`, `lb`, `lh`, print
int, and the two that name the section. -/
def Obligations.OtherInstructionsIgnoreU : Prop :=
  ∀ (i : Instr) (s : State) (m : BitVec 4), (usesModifiers i = false ∨ i = .syscall ∧ s.getReg 6 ≠ 1) →
    exec i (withModifiers s m) = mapNext (fun t => withModifiers t m) (exec i s)

/-! # Whole-machine frames -/

/-- R26: apart from the program counter, an instruction writes only the registers its fields and its rule name. -/
def Obligations.OnlyNamedRegistersAreWritten : Prop :=
  ∀ (i : Instr) (s t : State) (q : Reg), exec i s = .next t → q ≠ 4 → q ∉ mayWrite i → t.getReg q = s.getReg q

/-- R52: no instruction but the stores, `push` and `syscall` changes a byte of memory. -/
def Obligations.OnlyStoresChangeMemory : Prop :=
  ∀ (i : Instr) (s t : State), storesToMemory i = false → exec i s = .next t → MemSame s t

/-- R37, R38, R39: only `syscall` changes the break, appends to the output (one event at most) or draws from the oracle;
any other instruction leaves the status, or faults. -/
def Obligations.OnlySyscallReachesTheHost : Prop :=
  ∀ (i : Instr) (s t : State), exec i s = .next t →
    (t.out = s.out ∨ i = .syscall ∧ ∃ e, t.out = s.out ++ [e]) ∧
    (i ≠ .syscall → t.brk = s.brk ∧ t.oraclePos = s.oraclePos ∧
      (t.status = s.status ∨ ∃ cause, t = faultedAs s cause))

/-- R208: the break never moves down and never passes `HEAP_LIMIT`. -/
def Obligations.BreakOnlyRisesToTheLimit : Prop :=
  ∀ s t : State, s.params.heapLimit < 2 ^ 32 → s.brk.toNat ≤ s.params.heapLimit → step s = .next t →
    s.brk.toNat ≤ t.brk.toNat ∧ t.brk.toNat ≤ t.params.heapLimit

/-! # Single-byte instructions -/

/-- R121. -/
def Obligations.NopOnlyAdvancesThePc : Prop :=
  (∀ rest, decode (0x01 :: rest) = .ok (.nop, rest)) ∧ encode .nop = [0x01] ∧
  ∀ s : State, ∃ t, exec .nop s = .next t ∧ OnlyRegs s t 1 []

/-! # Two-byte instructions -/

/-- R130. -/
def Obligations.MovCopiesARegister : Prop :=
  TwoByteForm 0xC0 .mov nibbles ∧
  ∀ (s : State) (rd rs : Reg), ∃ t, exec (.mov rd rs) s = .next t ∧ OnlyRegs s t 2 [(rd, seen s 2 rs)]

/-- R131. -/
def Obligations.JrJumpsToTheRegister : Prop :=
  TwoByteForm 0xC1 (fun rd _ => .jr rd) (fun rd _ => nibbles rd 0) ∧
  ∀ (s : State) (rd : Reg), ∃ t, exec (.jr rd) s = .next t ∧ OnlyRegs s t 2 [(4, seen s 2 rd)]

/-- R132. -/
def Obligations.LwLoadsAWord : Prop :=
  TwoByteForm 0xC2 .lw nibbles ∧ LoadRule .lw 4 wordAt

/-- R133. -/
def Obligations.SwStoresAWord : Prop :=
  TwoByteForm 0xC3 (fun rd rs => .sw rs rd) nibbles ∧ StoreRule .sw 4

/-- R134. -/
def Obligations.LbLoadsAByteExtendedByU : Prop :=
  TwoByteForm 0xC4 .lb nibbles ∧
  LoadRule .lb 1 (fun s a => if U s then (s.byteAt a).setWidth 32 else (s.byteAt a).signExtend 32)

/-- R135. -/
def Obligations.SbStoresAByte : Prop :=
  TwoByteForm 0xC5 (fun rd rs => .sb rs rd) nibbles ∧ StoreRule .sb 1

/-- R136. -/
def Obligations.LhLoadsAHalfExtendedByU : Prop :=
  TwoByteForm 0xC6 .lh nibbles ∧
  LoadRule .lh 2 (fun s a => if U s then (halfAt s a).setWidth 32 else (halfAt s a).signExtend 32)

/-- R137. -/
def Obligations.ShStoresAHalf : Prop :=
  TwoByteForm 0xC7 (fun rd rs => .sh rs rd) nibbles ∧ StoreRule .sh 2

/-- R138. -/
def Obligations.NotComplementsIntoRd : Prop :=
  TwoByteForm 0xC8 .not nibbles ∧
  ∀ (s : State) (rd rs : Reg), ∃ t, exec (.not rd rs) s = .next t ∧
    RegsAndFlags s t 2 [(rd, ~~~(seen s 2 rs))] (zs (~~~(seen s 2 rs)))

/-- R139: with `P` the 64-bit product, signed when U is clear and unsigned when U is set. -/
def Obligations.MulGivesTheWholeProduct : Prop :=
  TwoByteForm 0xC9 .mul nibbles ∧
  ∀ (s : State) (rd rs : Reg) (P : BitVec 64),
    P = (if U s then (seen s 2 rd).setWidth 64 * (seen s 2 rs).setWidth 64
      else (seen s 2 rd).signExtend 64 * (seen s 2 rs).signExtend 64) →
    ∃ t, exec (.mul rd rs) s = .next t ∧
      RegsAndFlags s t 2 [(7, P.extractLsb' 32 32), (6, P.extractLsb' 0 32)] (flagWord (P = 0) false P.msb false)

/-- R140: quotient toward zero and remainder of the dividend's sign, unsigned when U is set; a zero divisor faults. -/
def Obligations.DivGivesQuotientAndRemainder : Prop :=
  TwoByteForm 0xCA .div nibbles ∧
  ∀ (s : State) (rd rs : Reg) (A B q r : Word), A = seen s 2 rd → B = seen s 2 rs →
    (B = 0 → exec (.div rd rs) s = .next (faultedAs s .divideByZero)) ∧
    (B ≠ 0 →
      q = (if U s then BitVec.ofNat 32 (A.toNat / B.toNat) else BitVec.ofInt 32 (A.toInt.tdiv B.toInt)) →
      r = (if U s then BitVec.ofNat 32 (A.toNat % B.toNat) else BitVec.ofInt 32 (A.toInt.tmod B.toInt)) →
      ∃ t, exec (.div rd rs) s = .next t ∧
        RegsAndFlags s t 2 [(7, r), (6, q)]
          (flagWord (q = 0) false q.msb (U s = false ∧ A = 0x80000000 ∧ B = 0xFFFFFFFF)))

/-- R141: the word is stored at sp, then sp moves down by 4; the bytes outside the word at sp are unchanged. -/
def Obligations.PushStoresThenMovesSpDown : Prop :=
  TwoByteForm 0xCB (fun _ rs => .push rs) (fun _ rs => nibbles 0 rs) ∧
  ∀ (s : State) (rs : Reg),
    (AllMapped s (s.getReg 2) 4 →
      ∃ t, exec (.push rs) s = .next t ∧ RegsAre s t 2 [(2, s.getReg 2 - 4)] ∧ t.sr = s.sr ∧ HostSame s t ∧
        MemSameOutside s t (s.getReg 2) 4 ∧
        (s.mem.wf = true → ∀ k < 4,
          t.byteAt (s.getReg 2 + BitVec.ofNat 32 k) = datumByte s.params.byteOrder 4 (seen s 2 rs) k)) ∧
    ∀ x, FirstUnmapped s (s.getReg 2) 4 x → exec (.push rs) s = .next (faultedAs s (.memFault x .write))

/-- R142: sp moves up by 4, the word there is read, and `rd` is written last (so `pop sp` leaves the popped value). -/
def Obligations.PopMovesSpUpThenLoads : Prop :=
  TwoByteForm 0xCC (fun rd _ => .pop rd) (fun rd _ => nibbles rd 0) ∧
  ∀ (s : State) (rd : Reg),
    (AllMapped s (s.getReg 2 + 4) 4 →
      ∃ t, exec (.pop rd) s = .next t ∧
        OnlyRegs s t 2 [(rd, wordAt s (s.getReg 2 + 4)), (2, s.getReg 2 + 4)]) ∧
    ∀ x, FirstUnmapped s (s.getReg 2 + 4) 4 x → exec (.pop rd) s = .next (faultedAs s (.memFault x .read))

/-- R143. -/
def Obligations.PopfCopiesTheFlags : Prop :=
  TwoByteForm 0xCD (fun rd _ => .popf rd) (fun rd _ => nibbles rd 0) ∧
  ∀ (s : State) (rd : Reg), ∃ t, exec (.popf rd) s = .next t ∧ OnlyRegs s t 2 [(rd, s.sr.flags.setWidth 32)]

/-- R144. -/
def Obligations.PopmCopiesTheModifiers : Prop :=
  TwoByteForm 0xCE (fun rd _ => .popm rd) (fun rd _ => nibbles rd 0) ∧
  ∀ (s : State) (rd : Reg), ∃ t, exec (.popm rd) s = .next t ∧ OnlyRegs s t 2 [(rd, s.sr.modifiers.setWidth 32)]

/-- R145. -/
def Obligations.PushmWritesTheModifiers : Prop :=
  TwoByteForm 0xCF (fun _ rs => .pushm rs) (fun _ rs => nibbles 0 rs) ∧
  ∀ (s : State) (rs : Reg), ∃ t, exec (.pushm rs) s = .next t ∧ RegsAre s t 2 [] ∧
    t.sr = { s.sr with modifiers := (seen s 2 rs).extractLsb' 0 4 } ∧ MemSame s t ∧ HostSame s t

/-- R141, R142: a push and then a pop give the register the pushed value and leave sp as it was (`pop sp` apart: there the
value wins). -/
def Obligations.PopReturnsWhatPushStored : Prop :=
  ∀ (s : State) (rs rd : Reg), s.Inv → AllMapped s (s.getReg 2) 4 →
    ∃ t u, exec (.push rs) s = .next t ∧ exec (.pop rd) t = .next u ∧
      (rd ≠ 0 → u.getReg rd = seen s 2 rs) ∧ (rd ≠ 2 → u.getReg 2 = s.getReg 2)

/-- R64, R133, R132: a word stored at mapped addresses is the word loaded from there next, in either byte order. -/
def Obligations.LwReturnsWhatSwStored : Prop :=
  ∀ (s : State) (rs rd rs' rd' : Reg), s.Inv → AllMapped s (seen s 2 rd) 4 →
    ∃ t, exec (.sw rs rd) s = .next t ∧
      (seen t 2 rs' = seen s 2 rd → ∃ u, exec (.lw rd' rs') t = .next u ∧
        (rd' ≠ 0 → u.getReg rd' = seen s 2 rs))

/-! # Three-byte instructions -/

/-- R161, R162, R163. -/
def Obligations.BitwiseInstructions : Prop :=
  (ThreeByteForm 0xE0 (fun rd rs rt _ => .and rd rs rt) (fun rt _ => nibbles rt 0) ∧
    RegisterRule .and (fun a b => a &&& b) (fun a b => zs (a &&& b))) ∧
  (ThreeByteForm 0xE1 (fun rd rs rt _ => .or rd rs rt) (fun rt _ => nibbles rt 0) ∧
    RegisterRule .or (fun a b => a ||| b) (fun a b => zs (a ||| b))) ∧
  (ThreeByteForm 0xE2 (fun rd rs rt _ => .xor rd rs rt) (fun rt _ => nibbles rt 0) ∧
    RegisterRule .xor (fun a b => a ^^^ b) (fun a b => zs (a ^^^ b)))

/-- R164, R165, R166: the shifts by the `shamt` field, 0 to 15. -/
def Obligations.ShiftsByTheField : Prop :=
  (ThreeByteForm 0xE4 (fun rd rs _ sh => .sll rd rs sh.val) (fun _ sh => nibbles 0 sh) ∧
    ShamtRule .sll (fun v n => v <<< n)) ∧
  (ThreeByteForm 0xE5 (fun rd rs _ sh => .srl rd rs sh.val) (fun _ sh => nibbles 0 sh) ∧
    ShamtRule .srl (fun v n => v >>> n)) ∧
  (ThreeByteForm 0xE6 (fun rd rs _ sh => .sra rd rs sh.val) (fun _ sh => nibbles 0 sh) ∧
    ShamtRule .sra (fun v n => v.sshiftRight n))

/-- R167, R168, R169: the shifts by the low five bits of a register. -/
def Obligations.ShiftsByARegister : Prop :=
  (ThreeByteForm 0xE7 (fun rd rs rt _ => .sllv rd rs rt) (fun rt _ => nibbles rt 0) ∧
    RegisterRule .sllv (fun a b => a <<< (b.toNat % 32)) (fun a b => zs (a <<< (b.toNat % 32)))) ∧
  (ThreeByteForm 0xE8 (fun rd rs rt _ => .srlv rd rs rt) (fun rt _ => nibbles rt 0) ∧
    RegisterRule .srlv (fun a b => a >>> (b.toNat % 32)) (fun a b => zs (a >>> (b.toNat % 32)))) ∧
  (ThreeByteForm 0xE9 (fun rd rs rt _ => .srav rd rs rt) (fun rt _ => nibbles rt 0) ∧
    RegisterRule .srav (fun a b => a.sshiftRight (b.toNat % 32)) (fun a b => zs (a.sshiftRight (b.toNat % 32))))

/-- R170: C is the unsigned overflow, O the signed one (the exact signed sum does not fit). -/
def Obligations.AddWrapsAndReportsOverflow : Prop :=
  ThreeByteForm 0xEA (fun rd rs rt _ => .add rd rs rt) (fun rt _ => nibbles rt 0) ∧
  RegisterRule .add (fun a b => a + b) (fun a b =>
    flagWord (a + b = 0) (2 ^ 32 ≤ a.toNat + b.toNat) (a + b).msb
      (a.toInt + b.toInt < -2 ^ 31 ∨ 2 ^ 31 ≤ a.toInt + b.toInt))

/-- R171: C is the borrow, O the signed overflow (the exact signed difference does not fit). -/
def Obligations.SubWrapsAndReportsBorrow : Prop :=
  ThreeByteForm 0xEB (fun rd rs rt _ => .sub rd rs rt) (fun rt _ => nibbles rt 0) ∧
  RegisterRule .sub (fun a b => a - b) (fun a b =>
    flagWord (a - b = 0) (a.toNat < b.toNat) (a - b).msb
      (a.toInt - b.toInt < -2 ^ 31 ∨ 2 ^ 31 ≤ a.toInt - b.toInt))

/-! # Four-byte instructions -/

/-- R190. -/
def Obligations.LiWritesTheLowHalf : Prop :=
  FourByteForm 0xF0 (fun rd _ imm => .li rd imm) (fun rd _ => nibbles rd 0) ∧
  ∀ (s : State) (rd : Reg) (imm : BitVec 16), ∃ t, exec (.li rd imm) s = .next t ∧
    OnlyRegs s t 4 [(rd, (seen s 4 rd).extractLsb' 16 16 ++ imm)]

/-- R191. -/
def Obligations.LuiWritesTheHighHalf : Prop :=
  FourByteForm 0xF1 (fun rd _ imm => .lui rd imm) (fun rd _ => nibbles rd 0) ∧
  ∀ (s : State) (rd : Reg) (imm : BitVec 16), ∃ t, exec (.lui rd imm) s = .next t ∧
    OnlyRegs s t 4 [(rd, imm ++ (seen s 4 rd).extractLsb' 0 16)]

/-- R192: taken, the branch goes to `a + 4 + sext_16(imm16)`; not taken, to `a + 4`. -/
def Obligations.BeqBranchesWhenEqual : Prop :=
  FourByteForm 0xF2 (fun rd rs imm => .beq rd rs imm.toInt) nibbles ∧
  ∀ (s : State) (rd rs : Reg) (imm : BitVec 16),
    (seen s 4 rd = seen s 4 rs → ∃ t, exec (.beq rd rs imm.toInt) s = .next t ∧
      OnlyRegs s t 4 [(4, s.getReg 4 + 4 + imm.signExtend 32)]) ∧
    (seen s 4 rd ≠ seen s 4 rs → ∃ t, exec (.beq rd rs imm.toInt) s = .next t ∧ OnlyRegs s t 4 [])

/-! # System calls -/

/-- R201: the status becomes `Halted(g0)`, nothing else changes but the program counter, and no step follows. -/
def Obligations.ExitHaltsWithG0 : Prop :=
  ∀ s : State, s.getReg 6 = 0 → ∃ t, exec .syscall s = .next t ∧ RegsAre s t 1 [] ∧ t.sr = s.sr ∧ MemSame s t ∧
    HostState s t s.brk s.out s.oraclePos (.halted (s.getReg 8)) ∧ ∀ u, step t ≠ .next u

/-- R202, R203: one event; print int carries the 32-bit pattern of g0 and U, print chr the low eight bits of g0. -/
def Obligations.PrintIntAndPrintChrAppendOneEvent : Prop :=
  ∀ s : State,
    (s.getReg 6 = 1 → ∃ t, exec .syscall s = .next t ∧ RegsAre s t 1 [] ∧ t.sr = s.sr ∧ MemSame s t ∧
      HostState s t s.brk (s.out ++ [.printInt (s.getReg 8) (U s)]) s.oraclePos s.status) ∧
    (s.getReg 6 = 2 → ∃ t, exec .syscall s = .next t ∧ RegsAre s t 1 [] ∧ t.sr = s.sr ∧ MemSame s t ∧
      HostState s t s.brk (s.out ++ [.printChr ((s.getReg 8).extractLsb' 0 8)]) s.oraclePos s.status)

/-- R204: the bytes from g0 up to the first zero byte, in one event; an unmapped byte reached first faults, and so does a
whole address space without a zero byte. -/
def Obligations.PrintStrAppendsTheString : Prop :=
  ∀ s : State, s.getReg 6 = 3 →
    (∀ bs : List Byte, bs.length < 2 ^ 32 → AllMapped s (s.getReg 8) (bs.length + 1) →
      (∀ (k : Nat) (h : k < bs.length), s.byteAt (s.getReg 8 + BitVec.ofNat 32 k) = bs[k] ∧ bs[k] ≠ 0) →
      s.byteAt (s.getReg 8 + BitVec.ofNat 32 bs.length) = 0 →
      ∃ t, exec .syscall s = .next t ∧ RegsAre s t 1 [] ∧ t.sr = s.sr ∧ MemSame s t ∧
        HostState s t s.brk (s.out ++ [.printStr bs]) s.oraclePos s.status) ∧
    (∀ n < 2 ^ 32, (∀ k < n, s.mapped (s.getReg 8 + BitVec.ofNat 32 k) = true ∧
        s.byteAt (s.getReg 8 + BitVec.ofNat 32 k) ≠ 0) →
      s.mapped (s.getReg 8 + BitVec.ofNat 32 n) = false →
      exec .syscall s = .next (faultedAs s (.memFault (s.getReg 8 + BitVec.ofNat 32 n) .read))) ∧
    ((∀ a, s.mapped a = true ∧ s.byteAt a ≠ 0) → exec .syscall s = .next (faultedAs s .unterminatedString))

/-- R205, R206: v0 is the oracle's answer, and nothing else of the program's state changes. The answer is a free value of
the model, drawn at the oracle's position, which moves on by one (log 3). -/
def Obligations.ReadIntAndReadChrPutTheAnswerInV0 : Prop :=
  ∀ s : State,
    (s.getReg 6 = 4 → ∃ t, exec .syscall s = .next t ∧ RegsAre s t 1 [(6, Config.readInt s.oraclePos)] ∧
      t.sr = s.sr ∧ MemSame s t ∧ HostState s t s.brk s.out (s.oraclePos + 1) s.status) ∧
    (s.getReg 6 = 5 → ∃ t, exec .syscall s = .next t ∧ RegsAre s t 1 [(6, Config.readChr s.oraclePos)] ∧
      t.sr = s.sr ∧ MemSame s t ∧ HostState s t s.brk s.out (s.oraclePos + 1) s.status)

/-- R207: with `m` = g1, nothing happens for `m` = 0; else the answer (at most `m - 1` bytes, none of them zero) and a
zero byte are stored at g0, all of it or a fault. The answer is a free value of the model (log 3); every byte string the
rule admits is taken whole when it is the oracle's. -/
def Obligations.ReadStrStoresTheAnswer : Prop :=
  (∀ (m : Nat) (bs : List Byte), bs.length ≤ m - 1 → 0 ∉ bs → lawfulAnswer m bs = bs) ∧
  ∀ s : State, s.getReg 6 = 6 →
    (s.getReg 9 = 0 → ∃ t, exec .syscall s = .next t ∧ OnlyRegs s t 1 []) ∧
    (s.getReg 9 ≠ 0 → ∀ str : List Byte,
      str = lawfulAnswer (s.getReg 9).toNat (Config.readStr s.oraclePos (s.getReg 9).toNat) →
      str.length ≤ (s.getReg 9).toNat - 1 ∧ 0 ∉ str ∧
      (AllMapped s (s.getReg 8) (str.length + 1) →
        ∃ t, exec .syscall s = .next t ∧ RegsAre s t 1 [] ∧ t.sr = s.sr ∧
          HostState s t s.brk s.out (s.oraclePos + 1) s.status ∧
          MemSameOutside s t (s.getReg 8) (str.length + 1) ∧
          (s.mem.wf = true → ∀ (k : Nat) (h : k < (str ++ [0]).length),
            t.byteAt (s.getReg 8 + BitVec.ofNat 32 k) = (str ++ [0])[k])) ∧
      ∀ x, FirstUnmapped s (s.getReg 8) (str.length + 1) x →
        exec .syscall s = .next (faultedAs s (.memFault x .write)))

/-- R208, R11: the old break in v0 and the break plus g0 modulo 2^32, or `OutOfMemory` past the limit. With `HEAP_LIMIT` at
2^32 (R8 allows it) and a request that carries the break exactly there, the new break is 0: that clause is the model's
inference (log 8, DEDUCED), against R208's "the break never moves down". Below such a limit the break only rises. -/
def Obligations.SbrkReturnsTheOldBreak : Prop :=
  ∀ s : State, s.getReg 6 = 7 →
    (s.brk.toNat + (s.getReg 8).toNat ≤ s.params.heapLimit →
      ∃ t, exec .syscall s = .next t ∧ RegsAre s t 1 [(6, s.brk)] ∧ t.sr = s.sr ∧ MemSame s t ∧
        HostState s t (s.brk + s.getReg 8) s.out s.oraclePos s.status) ∧
    (s.params.heapLimit < s.brk.toNat + (s.getReg 8).toNat →
      exec .syscall s = .next (faultedAs s (.outOfMemory (s.getReg 8))))

/-- R209: a selector above 7, in any bit of v0, raises `BadSyscall`. -/
def Obligations.UnknownSelectorFaults : Prop :=
  ∀ s : State, 7 < (s.getReg 6).toNat → exec .syscall s = .next (faultedAs s (.badSyscall (s.getReg 6)))
end

