-- ==== Sys2Proof/Laws/Decode.lean ====
section
/-! SUPPORT. Laws of the encoding's fields, and the formats of the first bytes. -/

namespace Sys2Proof

/-! ## Fields -/

@[simp] theorem highReg_regField (hi : Reg) (lo : BitVec 4) : highReg (regField hi ++ lo) = hi := by
  revert hi lo
  decide

@[simp] theorem lowReg_regField (hi : BitVec 4) (lo : Reg) : lowReg (hi ++ regField lo) = lo := by
  revert hi lo
  decide

/-- R88: a shift amount that fits its field is read back. -/
theorem shamtOf_field (hi : BitVec 4) {n : Nat} (h : n < 16) : shamtOf (hi ++ BitVec.ofNat 4 n) = n := by
  rw [shamtOf, show (hi ++ BitVec.ofNat 4 n).extractLsb' 0 4 = BitVec.ofNat 4 n from BitVec.extractLsb'_append_eq_right,
    BitVec.toNat_ofNat, Nat.mod_eq_of_lt h]

/-- R87: an immediate is read back from its two bytes. -/
@[simp] theorem immOf_bytes (imm : BitVec 16) : immOf (imm.extractLsb' 8 8) (imm.extractLsb' 0 8) = imm := by
  apply BitVec.eq_of_getLsbD_eq
  intro i hi
  simp only [immOf, BitVec.getLsbD_append, BitVec.getLsbD_extractLsb']
  by_cases h : i < 8
  · simp [h]
  · simp [h, show i - 8 < 8 by omega, show 8 + (i - 8) = i by omega]

/-- R87: an offset that fits sixteen bits is read back. -/
theorem toInt_ofInt_of_fits {off : Int} (h : offsetFits off = true) : (BitVec.ofInt 16 off).toInt = off := by
  simp only [offsetFits, Bool.and_eq_true, decide_eq_true_eq] at h
  rw [BitVec.toInt_ofInt, Int.bmod_eq_of_le] <;> omega

/-! ## Decoding from the format of the first byte (R90) -/

theorem decode_one {b0 : Byte} {i : Instr} (h : formatOf b0 = .ok (.one i)) (rest : List Byte) :
    decode (b0 :: rest) = .ok (i, rest) := by
  simp only [decode, h]

theorem decode_two {b0 : Byte} {mk} (h : formatOf b0 = .ok (.two mk)) (b1 : Byte) (rest : List Byte) :
    decode (b0 :: b1 :: rest) = .ok (mk (highReg b1) (lowReg b1), rest) := by
  simp only [decode, h]

theorem decode_three {b0 : Byte} {mk} (h : formatOf b0 = .ok (.three mk)) (b1 b2 : Byte) (rest : List Byte) :
    decode (b0 :: b1 :: b2 :: rest) = .ok (mk (highReg b1) (lowReg b1) (highReg b2) (shamtOf b2), rest) := by
  simp only [decode, h]

theorem decode_four {b0 : Byte} {mk} (h : formatOf b0 = .ok (.four mk)) (b1 b2 b3 : Byte) (rest : List Byte) :
    decode (b0 :: b1 :: b2 :: b3 :: rest) = .ok (mk (highReg b1) (lowReg b1) (immOf b2 b3), rest) := by
  simp only [decode, h]

/-- R90: an illegal first byte is refused whatever follows it. -/
theorem decode_illegal {b0 : Byte} {why : Illegal} (h : formatOf b0 = .error why) (rest : List Byte) :
    decode (b0 :: rest) = .error (.illegal b0 why) := by
  simp only [decode, h]

/-- A legal first byte followed by enough bytes is decoded. -/
theorem decode_of_length {b0 : Byte} {f : Format} (h : formatOf b0 = .ok f) {bs : List Byte}
    (hl : bs.length = f.length - 1) : ∃ i, decode (b0 :: bs) = .ok (i, []) := by
  cases f with
  | one i =>
    obtain rfl : bs = [] := List.length_eq_zero_iff.1 hl
    exact ⟨_, decode_one h []⟩
  | two mk =>
    obtain ⟨b1, rfl⟩ := List.length_eq_one_iff.1 hl
    exact ⟨_, decode_two h b1 []⟩
  | three mk =>
    obtain ⟨b1, b2, rfl⟩ := List.length_eq_two.1 hl
    exact ⟨_, decode_three h b1 b2 []⟩
  | four mk =>
    obtain ⟨b1, b2, b3, rfl⟩ := List.length_eq_three.1 hl
    exact ⟨_, decode_four h b1 b2 b3 []⟩

end Sys2Proof
end

