-- ==== Sys2Proof/Laws/Memory.lean ====
section
/-! SUPPORT. Laws of memory: what a store changes and leaves, that every operation keeps the canonical form, and that equal
memories are equal data. -/

namespace Sys2Proof.Machine

theorem Memory.wf_cons (a : Nat) (b : Byte) (m : Memory) :
    Memory.wf ((a, b) :: m) = true ↔
      a < 2 ^ 32 ∧ b ≠ Memory.unlisted ∧ (∀ c ∈ m, a < c.1) ∧ Memory.wf m = true := by
  simp only [Memory.wf, Bool.and_eq_true, decide_eq_true_eq, List.all_eq_true, and_assoc]

/-- Every cell of a memory after a store was there before, or is the stored one. -/
theorem Memory.mem_store {m : Memory} {a : Nat} {b : Byte} {c : Host.Cell} (h : c ∈ m.store a b) :
    c ∈ m ∨ c = (a, b) := by
  induction m with
  | nil =>
    simp only [Memory.store, Memory.cons] at h
    split at h <;> simp_all
  | cons d m ih =>
    obtain ⟨k, v⟩ := d
    simp only [Memory.store, Memory.cons] at h
    split at h
    · split at h <;> simp_all; tauto
    · split at h
      · split at h <;> simp_all; tauto
      · rcases List.mem_cons.1 h with h | h
        · exact .inl (List.mem_cons.2 (.inl h))
        · exact (ih h).imp (List.mem_cons_of_mem _) id

/-- A property of every cell of a memory and of the stored cell holds of every cell afterwards. -/
theorem Memory.all_store {p : Host.Cell → Bool} {m : Memory} {a : Nat} {b : Byte} (hm : m.all p = true)
    (hab : p (a, b) = true) : (m.store a b).all p = true := by
  rw [List.all_eq_true] at hm ⊢
  intro c hc
  rcases Memory.mem_store hc with h | rfl
  exacts [hm c h, hab]

/-- A store keeps the canonical form. -/
theorem Memory.store_wf {m : Memory} (h : m.wf = true) {a : Nat} (ha : a < 2 ^ 32) (b : Byte) :
    (m.store a b).wf = true := by
  induction m with
  | nil =>
    simp only [Memory.store, Memory.cons]
    split
    · rfl
    · exact (Memory.wf_cons a b []).2 ⟨ha, ‹_›, by simp, rfl⟩
  | cons d m ih =>
    obtain ⟨k, v⟩ := d
    obtain ⟨hk, hv, hlt, hm⟩ := (Memory.wf_cons k v m).1 h
    simp only [Memory.store, Memory.cons]
    split
    · rename_i hak
      split
      · exact h
      · refine (Memory.wf_cons _ _ _).2 ⟨ha, ‹_›, fun c hc => ?_, h⟩
        rcases List.mem_cons.1 hc with rfl | hc
        · exact hak
        · exact hak.trans (hlt c hc)
    · split
      · rename_i hak
        split
        · exact hm
        · exact (Memory.wf_cons _ _ _).2 ⟨ha, ‹_›, fun c hc => hak ▸ hlt c hc, hm⟩
      · refine (Memory.wf_cons _ _ _).2 ⟨hk, hv, fun c hc => ?_, ih hm⟩
        rcases Memory.mem_store hc with hc | rfl
        · exact hlt c hc
        · simp only; omega

/-- A store leaves every other address as it was. -/
theorem Memory.byteAt_store_ne (m : Memory) {a a' : Nat} (h : a ≠ a') (b : Byte) :
    (m.store a b).byteAt a' = m.byteAt a' := by
  induction m with
  | nil =>
    simp only [Memory.store, Memory.cons]
    split <;> simp [Memory.byteAt, h]
  | cons d m ih =>
    obtain ⟨k, v⟩ := d
    simp only [Memory.store, Memory.cons]
    split
    · split <;> simp [Memory.byteAt, h]
    · split
      · subst_vars; split <;> simp [Memory.byteAt, h]
      · simp [Memory.byteAt, ih]

/-- An address below every listed one reads as an unlisted address. -/
theorem Memory.byteAt_of_lt {m : Memory} {a : Nat} (h : ∀ c ∈ m, a < c.1) : m.byteAt a = Memory.unlisted := by
  induction m with
  | nil => rfl
  | cons d m ih =>
    obtain ⟨k, v⟩ := d
    have hk := h (k, v) (List.mem_cons_self ..)
    simp only at hk
    simp only [Memory.byteAt, show k ≠ a by omega, if_false]
    exact ih fun c hc => h c (List.mem_cons_of_mem _ hc)

/-- The stored byte is read back. -/
theorem Memory.byteAt_store_self {m : Memory} (h : m.wf = true) (a : Nat) (b : Byte) : (m.store a b).byteAt a = b := by
  induction m with
  | nil =>
    simp only [Memory.store, Memory.cons]
    split
    · subst_vars; rfl
    · simp [Memory.byteAt]
  | cons d m ih =>
    obtain ⟨k, v⟩ := d
    obtain ⟨-, -, hlt, hm⟩ := (Memory.wf_cons k v m).1 h
    simp only [Memory.store, Memory.cons]
    split
    · rename_i hak
      split
      · subst_vars
        refine Memory.byteAt_of_lt fun c hc => ?_
        rcases List.mem_cons.1 hc with rfl | hc
        · exact hak
        · exact hak.trans (hlt c hc)
      · simp [Memory.byteAt]
    · split
      · rename_i hak
        split
        · subst_vars
          exact Memory.byteAt_of_lt hlt
        · simp [Memory.byteAt]
      · rename_i hak
        simp [Memory.byteAt, Ne.symm hak, ih hm]

/-- Read after write. -/
theorem Memory.byteAt_store {m : Memory} (h : m.wf = true) (a a' : Nat) (b : Byte) :
    (m.store a b).byteAt a' = if a = a' then b else m.byteAt a' := by
  split
  · subst_vars; exact Memory.byteAt_store_self h _ _
  · exact Memory.byteAt_store_ne m ‹_› b

/-- A listed byte is the byte at its address. -/
theorem Memory.byteAt_of_mem {m : Memory} (h : m.wf = true) {a : Nat} {b : Byte} (hc : (a, b) ∈ m) : m.byteAt a = b := by
  induction m with
  | nil => cases hc
  | cons d m ih =>
    obtain ⟨k, v⟩ := d
    obtain ⟨-, -, hlt, hm⟩ := (Memory.wf_cons k v m).1 h
    rcases List.mem_cons.1 hc with e | hc
    · obtain ⟨rfl, rfl⟩ := Prod.mk.inj e
      simp [Memory.byteAt]
    · have := hlt _ hc
      simp only at this
      simp only [Memory.byteAt, show k ≠ a by omega, if_false]
      exact ih hm hc

/-- Memories in canonical form that read alike are the same data. -/
theorem Memory.ext_of_wf {m m' : Memory} (h : m.wf = true) (h' : m'.wf = true)
    (hb : ∀ a, m.byteAt a = m'.byteAt a) : m = m' := by
  induction m generalizing m' with
  | nil =>
    cases m' with
    | nil => rfl
    | cons d m' =>
      obtain ⟨k, v⟩ := d
      obtain ⟨-, hv, -, -⟩ := (Memory.wf_cons k v m').1 h'
      exact absurd (hb k).symm (by simpa [Memory.byteAt] using hv)
  | cons d m ih =>
    obtain ⟨k, v⟩ := d
    obtain ⟨-, hv, hlt, hm⟩ := (Memory.wf_cons k v m).1 h
    cases m' with
    | nil => exact absurd (hb k) (by simpa [Memory.byteAt] using hv)
    | cons d' m' =>
      obtain ⟨k', v'⟩ := d'
      obtain ⟨-, hv', hlt', hm'⟩ := (Memory.wf_cons k' v' m').1 h'
      have below : ∀ {n : Memory} {j i : Nat}, (∀ c ∈ n, j < c.1) → i ≤ j → n.byteAt i = Memory.unlisted :=
        fun hn hij => Memory.byteAt_of_lt fun c hc => lt_of_le_of_lt hij (hn c hc)
      have hkk : k = k' := by
        rcases Nat.lt_trichotomy k k' with hl | he | hl
        · have e := hb k
          simp only [Memory.byteAt, if_true, show k' ≠ k by omega, if_false] at e
          exact absurd (e.trans (below hlt' hl.le)) hv
        · exact he
        · have e := hb k'
          simp only [Memory.byteAt, if_true, show k ≠ k' by omega, if_false] at e
          exact absurd (e.symm.trans (below hlt hl.le)) hv'
      subst hkk
      have hvv : v = v' := by simpa [Memory.byteAt] using hb k
      subst hvv
      congr 1
      refine ih hm hm' fun a => ?_
      by_cases ha : k = a
      · subst ha
        rw [below hlt le_rfl, below hlt' le_rfl]
      · simpa [Memory.byteAt, ha] using hb a

/-! ## Storing several bytes -/

/-- The address after `addr`, then `k` more (R59). -/
theorem add_one_add (addr : Word) (k : Nat) : addr + 1 + BitVec.ofNat 32 k = addr + BitVec.ofNat 32 (k + 1) := by
  rw [BitVec.add_assoc]
  congr 1
  rw [show (1 : Word) = BitVec.ofNat 32 1 from rfl, ← BitVec.ofNat_add, Nat.add_comm]

theorem Memory.storeBytes_wf {m : Memory} (h : m.wf = true) (addr : Word) (bs : List Byte) :
    (m.storeBytes addr bs).wf = true := by
  induction bs generalizing m addr with
  | nil => exact h
  | cons b bs ih => exact ih (Memory.store_wf h addr.isLt b) _

/-- Every cell after a store of several bytes was there before, or is at one of the stored addresses. -/
theorem Memory.mem_storeBytes {m : Memory} {addr : Word} {bs : List Byte} {c : Host.Cell}
    (h : c ∈ m.storeBytes addr bs) : c ∈ m ∨ ∃ k < bs.length, c.1 = (addr + BitVec.ofNat 32 k).toNat := by
  induction bs generalizing m addr with
  | nil => exact .inl h
  | cons b bs ih =>
    rcases ih h with h | ⟨k, hk, e⟩
    · rcases Memory.mem_store h with h | rfl
      · exact .inl h
      · exact .inr ⟨0, by simp, by simp⟩
    · refine .inr ⟨k + 1, by simpa using hk, ?_⟩
      rw [e, add_one_add]

/-- A store of several bytes leaves every address outside them as it was. -/
theorem Memory.byteAt_storeBytes_of_ne (m : Memory) (addr : Word) (bs : List Byte) (a : Word)
    (h : ∀ k < bs.length, a ≠ addr + BitVec.ofNat 32 k) : (m.storeBytes addr bs).byteAt a.toNat = m.byteAt a.toNat := by
  induction bs generalizing m addr with
  | nil => rfl
  | cons b bs ih =>
    rw [Memory.storeBytes, ih]
    · refine Memory.byteAt_store_ne m (fun e => h 0 (by simp) ?_) b
      simpa using (BitVec.eq_of_toNat_eq e).symm
    · intro k hk e
      refine h (k + 1) (by simpa using hk) ?_
      rw [e, add_one_add]

/-- The stored bytes are read back, as long as they do not run into themselves round the address space. -/
theorem Memory.byteAt_storeBytes {m : Memory} (h : m.wf = true) (addr : Word) (bs : List Byte)
    (hlen : bs.length ≤ 2 ^ 32) (k : Nat) (hk : k < bs.length) :
    (m.storeBytes addr bs).byteAt (addr + BitVec.ofNat 32 k).toNat = bs[k] := by
  induction bs generalizing m addr k with
  | nil => simp at hk
  | cons b bs ih =>
    simp only [List.length_cons] at hlen hk
    rw [Memory.storeBytes]
    cases k with
    | zero =>
      simp only [BitVec.ofNat_eq_ofNat, BitVec.add_zero, List.getElem_cons_zero]
      rw [Memory.byteAt_storeBytes_of_ne, Memory.byteAt_store_self h]
      intro j hj e
      have := congrArg BitVec.toNat (e.trans (add_one_add addr j))
      simp only [BitVec.toNat_add, BitVec.toNat_ofNat] at this
      have := addr.isLt
      omega
    | succ k =>
      rw [← add_one_add, ih (Memory.store_wf h addr.isLt b) (addr + 1) (by omega) k (by omega)]
      simp

/-! ## Addresses of an access -/

@[simp] theorem length_addresses (addr : Word) (n : Nat) : (addresses addr n).length = n := by
  simp [addresses]

theorem mem_addresses {addr a : Word} {n : Nat} : a ∈ addresses addr n ↔ ∃ k < n, a = addr + BitVec.ofNat 32 k := by
  simp [addresses, eq_comm]

/-- The loaded image is in canonical form. -/
theorem Memory.ofImage_wf (p : Params) (image : List Host.Cell) : (Memory.ofImage p image).wf = true := by
  have go : ∀ (l : List Host.Cell) (m : Memory), m.wf = true →
      (l.foldl (fun m c => if c.1 < 2 ^ 32 && isMapped p (BitVec.ofNat 32 c.1) then m.store c.1 c.2 else m) m).wf
        = true := by
    intro l
    induction l with
    | nil => exact fun m h => h
    | cons c l ih =>
      intro m h
      refine ih _ ?_
      dsimp only
      split
      · rename_i hc
        simp only [Bool.and_eq_true, decide_eq_true_eq] at hc
        exact Memory.store_wf h hc.1 _
      · exact h
  exact go image [] rfl

end Sys2Proof.Machine
end

