-- ==== Sys2Proof/Laws/State.lean ====
section
/-! SUPPORT. One lemma per field per update of the state, and the reads of registers after each update. No later proof
unfolds a record update. -/

namespace Sys2Proof.Machine

/-! ## `setReg` -/

@[simp] theorem State.setReg_sr (s : State) (r : Reg) (v : Word) : (s.setReg r v).sr = s.sr := by
  unfold State.setReg; split <;> rfl
@[simp] theorem State.setReg_mem (s : State) (r : Reg) (v : Word) : (s.setReg r v).mem = s.mem := by
  unfold State.setReg; split <;> rfl
@[simp] theorem State.setReg_brk (s : State) (r : Reg) (v : Word) : (s.setReg r v).brk = s.brk := by
  unfold State.setReg; split <;> rfl
@[simp] theorem State.setReg_out (s : State) (r : Reg) (v : Word) : (s.setReg r v).out = s.out := by
  unfold State.setReg; split <;> rfl
@[simp] theorem State.setReg_oraclePos (s : State) (r : Reg) (v : Word) : (s.setReg r v).oraclePos = s.oraclePos := by
  unfold State.setReg; split <;> rfl
@[simp] theorem State.setReg_status (s : State) (r : Reg) (v : Word) : (s.setReg r v).status = s.status := by
  unfold State.setReg; split <;> rfl
@[simp] theorem State.setReg_params (s : State) (r : Reg) (v : Word) : (s.setReg r v).params = s.params := by
  unfold State.setReg; split <;> rfl
@[simp] theorem State.setReg_u (s : State) (r : Reg) (v : Word) : (s.setReg r v).u = s.u := by simp [State.u]
@[simp] theorem State.setReg_mapped (s : State) (r : Reg) (v : Word) (a : Word) : (s.setReg r v).mapped a = s.mapped a := by simp [State.mapped]
@[simp] theorem State.setReg_byteAt (s : State) (r : Reg) (v : Word) (a : Word) : (s.setReg r v).byteAt a = s.byteAt a := by simp [State.byteAt]

/-! ## `advance` -/

@[simp] theorem State.advance_sr (s : State) (n : Nat) : (s.advance n).sr = s.sr := State.setReg_sr ..
@[simp] theorem State.advance_mem (s : State) (n : Nat) : (s.advance n).mem = s.mem := State.setReg_mem ..
@[simp] theorem State.advance_brk (s : State) (n : Nat) : (s.advance n).brk = s.brk := State.setReg_brk ..
@[simp] theorem State.advance_out (s : State) (n : Nat) : (s.advance n).out = s.out := State.setReg_out ..
@[simp] theorem State.advance_oraclePos (s : State) (n : Nat) : (s.advance n).oraclePos = s.oraclePos := State.setReg_oraclePos ..
@[simp] theorem State.advance_status (s : State) (n : Nat) : (s.advance n).status = s.status := State.setReg_status ..
@[simp] theorem State.advance_params (s : State) (n : Nat) : (s.advance n).params = s.params := State.setReg_params ..
@[simp] theorem State.advance_u (s : State) (n : Nat) : (s.advance n).u = s.u := by simp [State.u]
@[simp] theorem State.advance_mapped (s : State) (n : Nat) (a : Word) : (s.advance n).mapped a = s.mapped a := by simp [State.mapped]
@[simp] theorem State.advance_byteAt (s : State) (n : Nat) (a : Word) : (s.advance n).byteAt a = s.byteAt a := by simp [State.byteAt]

/-! ## `setFlags` -/

@[simp] theorem State.setFlags_sr (s : State) (f : FlagBits) : (s.setFlags f).sr = { s.sr with flags := f.section } := rfl
@[simp] theorem State.setFlags_mem (s : State) (f : FlagBits) : (s.setFlags f).mem = s.mem := rfl
@[simp] theorem State.setFlags_brk (s : State) (f : FlagBits) : (s.setFlags f).brk = s.brk := rfl
@[simp] theorem State.setFlags_out (s : State) (f : FlagBits) : (s.setFlags f).out = s.out := rfl
@[simp] theorem State.setFlags_oraclePos (s : State) (f : FlagBits) : (s.setFlags f).oraclePos = s.oraclePos := rfl
@[simp] theorem State.setFlags_status (s : State) (f : FlagBits) : (s.setFlags f).status = s.status := rfl
@[simp] theorem State.setFlags_params (s : State) (f : FlagBits) : (s.setFlags f).params = s.params := rfl
@[simp] theorem State.setFlags_regs (s : State) (f : FlagBits) : (s.setFlags f).regs = s.regs := rfl
@[simp] theorem State.setFlags_zeroPlace (s : State) (f : FlagBits) : (s.setFlags f).zeroPlace = s.zeroPlace := rfl
@[simp] theorem State.setFlags_getReg (s : State) (f : FlagBits) (q : Reg) : (s.setFlags f).getReg q = s.getReg q := rfl
@[simp] theorem State.setFlags_pc (s : State) (f : FlagBits) : (s.setFlags f).pc = s.pc := rfl
@[simp] theorem State.setFlags_u (s : State) (f : FlagBits) : (s.setFlags f).u = s.u := by simp [State.u]
@[simp] theorem State.setFlags_mapped (s : State) (f : FlagBits) (a : Word) : (s.setFlags f).mapped a = s.mapped a := by simp [State.mapped]
@[simp] theorem State.setFlags_byteAt (s : State) (f : FlagBits) (a : Word) : (s.setFlags f).byteAt a = s.byteAt a := by simp [State.byteAt]

/-! ## `setModifiers` -/

@[simp] theorem State.setModifiers_sr (s : State) (m : BitVec 4) : (s.setModifiers m).sr = { s.sr with modifiers := m } := rfl
@[simp] theorem State.setModifiers_mem (s : State) (m : BitVec 4) : (s.setModifiers m).mem = s.mem := rfl
@[simp] theorem State.setModifiers_brk (s : State) (m : BitVec 4) : (s.setModifiers m).brk = s.brk := rfl
@[simp] theorem State.setModifiers_out (s : State) (m : BitVec 4) : (s.setModifiers m).out = s.out := rfl
@[simp] theorem State.setModifiers_oraclePos (s : State) (m : BitVec 4) : (s.setModifiers m).oraclePos = s.oraclePos := rfl
@[simp] theorem State.setModifiers_status (s : State) (m : BitVec 4) : (s.setModifiers m).status = s.status := rfl
@[simp] theorem State.setModifiers_params (s : State) (m : BitVec 4) : (s.setModifiers m).params = s.params := rfl
@[simp] theorem State.setModifiers_regs (s : State) (m : BitVec 4) : (s.setModifiers m).regs = s.regs := rfl
@[simp] theorem State.setModifiers_zeroPlace (s : State) (m : BitVec 4) : (s.setModifiers m).zeroPlace = s.zeroPlace := rfl
@[simp] theorem State.setModifiers_getReg (s : State) (m : BitVec 4) (q : Reg) : (s.setModifiers m).getReg q = s.getReg q := rfl
@[simp] theorem State.setModifiers_pc (s : State) (m : BitVec 4) : (s.setModifiers m).pc = s.pc := rfl
@[simp] theorem State.setModifiers_u (s : State) (m : BitVec 4) : (s.setModifiers m).u = m.getLsbD 0 := rfl
@[simp] theorem State.setModifiers_mapped (s : State) (m : BitVec 4) (a : Word) : (s.setModifiers m).mapped a = s.mapped a := by simp [State.mapped]
@[simp] theorem State.setModifiers_byteAt (s : State) (m : BitVec 4) (a : Word) : (s.setModifiers m).byteAt a = s.byteAt a := by simp [State.byteAt]

/-! ## `setMem` -/

@[simp] theorem State.setMem_sr (s : State) (m : Memory) : (s.setMem m).sr = s.sr := rfl
@[simp] theorem State.setMem_mem (s : State) (m : Memory) : (s.setMem m).mem = m := rfl
@[simp] theorem State.setMem_brk (s : State) (m : Memory) : (s.setMem m).brk = s.brk := rfl
@[simp] theorem State.setMem_out (s : State) (m : Memory) : (s.setMem m).out = s.out := rfl
@[simp] theorem State.setMem_oraclePos (s : State) (m : Memory) : (s.setMem m).oraclePos = s.oraclePos := rfl
@[simp] theorem State.setMem_status (s : State) (m : Memory) : (s.setMem m).status = s.status := rfl
@[simp] theorem State.setMem_params (s : State) (m : Memory) : (s.setMem m).params = s.params := rfl
@[simp] theorem State.setMem_regs (s : State) (m : Memory) : (s.setMem m).regs = s.regs := rfl
@[simp] theorem State.setMem_zeroPlace (s : State) (m : Memory) : (s.setMem m).zeroPlace = s.zeroPlace := rfl
@[simp] theorem State.setMem_getReg (s : State) (m : Memory) (q : Reg) : (s.setMem m).getReg q = s.getReg q := rfl
@[simp] theorem State.setMem_pc (s : State) (m : Memory) : (s.setMem m).pc = s.pc := rfl
@[simp] theorem State.setMem_u (s : State) (m : Memory) : (s.setMem m).u = s.u := by simp [State.u]
@[simp] theorem State.setMem_mapped (s : State) (m : Memory) (a : Word) : (s.setMem m).mapped a = s.mapped a := by simp [State.mapped]
@[simp] theorem State.setMem_byteAt (s : State) (m : Memory) (a : Word) : (s.setMem m).byteAt a = m.byteAt a.toNat := rfl

/-! ## `setBrk` -/

@[simp] theorem State.setBrk_sr (s : State) (b : Word) : (s.setBrk b).sr = s.sr := rfl
@[simp] theorem State.setBrk_mem (s : State) (b : Word) : (s.setBrk b).mem = s.mem := rfl
@[simp] theorem State.setBrk_brk (s : State) (b : Word) : (s.setBrk b).brk = b := rfl
@[simp] theorem State.setBrk_out (s : State) (b : Word) : (s.setBrk b).out = s.out := rfl
@[simp] theorem State.setBrk_oraclePos (s : State) (b : Word) : (s.setBrk b).oraclePos = s.oraclePos := rfl
@[simp] theorem State.setBrk_status (s : State) (b : Word) : (s.setBrk b).status = s.status := rfl
@[simp] theorem State.setBrk_params (s : State) (b : Word) : (s.setBrk b).params = s.params := rfl
@[simp] theorem State.setBrk_regs (s : State) (b : Word) : (s.setBrk b).regs = s.regs := rfl
@[simp] theorem State.setBrk_zeroPlace (s : State) (b : Word) : (s.setBrk b).zeroPlace = s.zeroPlace := rfl
@[simp] theorem State.setBrk_getReg (s : State) (b : Word) (q : Reg) : (s.setBrk b).getReg q = s.getReg q := rfl
@[simp] theorem State.setBrk_pc (s : State) (b : Word) : (s.setBrk b).pc = s.pc := rfl
@[simp] theorem State.setBrk_u (s : State) (b : Word) : (s.setBrk b).u = s.u := by simp [State.u]
@[simp] theorem State.setBrk_mapped (s : State) (b : Word) (a : Word) : (s.setBrk b).mapped a = s.mapped a := by simp [State.mapped]
@[simp] theorem State.setBrk_byteAt (s : State) (b : Word) (a : Word) : (s.setBrk b).byteAt a = s.byteAt a := by simp [State.byteAt]

/-! ## `setStatus` -/

@[simp] theorem State.setStatus_sr (s : State) (st : Status) : (s.setStatus st).sr = s.sr := rfl
@[simp] theorem State.setStatus_mem (s : State) (st : Status) : (s.setStatus st).mem = s.mem := rfl
@[simp] theorem State.setStatus_brk (s : State) (st : Status) : (s.setStatus st).brk = s.brk := rfl
@[simp] theorem State.setStatus_out (s : State) (st : Status) : (s.setStatus st).out = s.out := rfl
@[simp] theorem State.setStatus_oraclePos (s : State) (st : Status) : (s.setStatus st).oraclePos = s.oraclePos := rfl
@[simp] theorem State.setStatus_status (s : State) (st : Status) : (s.setStatus st).status = st := rfl
@[simp] theorem State.setStatus_params (s : State) (st : Status) : (s.setStatus st).params = s.params := rfl
@[simp] theorem State.setStatus_regs (s : State) (st : Status) : (s.setStatus st).regs = s.regs := rfl
@[simp] theorem State.setStatus_zeroPlace (s : State) (st : Status) : (s.setStatus st).zeroPlace = s.zeroPlace := rfl
@[simp] theorem State.setStatus_getReg (s : State) (st : Status) (q : Reg) : (s.setStatus st).getReg q = s.getReg q := rfl
@[simp] theorem State.setStatus_pc (s : State) (st : Status) : (s.setStatus st).pc = s.pc := rfl
@[simp] theorem State.setStatus_u (s : State) (st : Status) : (s.setStatus st).u = s.u := by simp [State.u]
@[simp] theorem State.setStatus_mapped (s : State) (st : Status) (a : Word) : (s.setStatus st).mapped a = s.mapped a := by simp [State.mapped]
@[simp] theorem State.setStatus_byteAt (s : State) (st : Status) (a : Word) : (s.setStatus st).byteAt a = s.byteAt a := by simp [State.byteAt]

/-! ## `emit` -/

@[simp] theorem State.emit_sr (s : State) (e : Event) : (s.emit e).sr = s.sr := rfl
@[simp] theorem State.emit_mem (s : State) (e : Event) : (s.emit e).mem = s.mem := rfl
@[simp] theorem State.emit_brk (s : State) (e : Event) : (s.emit e).brk = s.brk := rfl
@[simp] theorem State.emit_out (s : State) (e : Event) : (s.emit e).out = s.out ++ [e] := rfl
@[simp] theorem State.emit_oraclePos (s : State) (e : Event) : (s.emit e).oraclePos = s.oraclePos := rfl
@[simp] theorem State.emit_status (s : State) (e : Event) : (s.emit e).status = s.status := rfl
@[simp] theorem State.emit_params (s : State) (e : Event) : (s.emit e).params = s.params := rfl
@[simp] theorem State.emit_regs (s : State) (e : Event) : (s.emit e).regs = s.regs := rfl
@[simp] theorem State.emit_zeroPlace (s : State) (e : Event) : (s.emit e).zeroPlace = s.zeroPlace := rfl
@[simp] theorem State.emit_getReg (s : State) (e : Event) (q : Reg) : (s.emit e).getReg q = s.getReg q := rfl
@[simp] theorem State.emit_pc (s : State) (e : Event) : (s.emit e).pc = s.pc := rfl
@[simp] theorem State.emit_u (s : State) (e : Event) : (s.emit e).u = s.u := by simp [State.u]
@[simp] theorem State.emit_mapped (s : State) (e : Event) (a : Word) : (s.emit e).mapped a = s.mapped a := by simp [State.mapped]
@[simp] theorem State.emit_byteAt (s : State) (e : Event) (a : Word) : (s.emit e).byteAt a = s.byteAt a := by simp [State.byteAt]

/-! ## `drawn` -/

@[simp] theorem State.drawn_sr (s : State) : (s.drawn).sr = s.sr := rfl
@[simp] theorem State.drawn_mem (s : State) : (s.drawn).mem = s.mem := rfl
@[simp] theorem State.drawn_brk (s : State) : (s.drawn).brk = s.brk := rfl
@[simp] theorem State.drawn_out (s : State) : (s.drawn).out = s.out := rfl
@[simp] theorem State.drawn_oraclePos (s : State) : (s.drawn).oraclePos = s.oraclePos + 1 := rfl
@[simp] theorem State.drawn_status (s : State) : (s.drawn).status = s.status := rfl
@[simp] theorem State.drawn_params (s : State) : (s.drawn).params = s.params := rfl
@[simp] theorem State.drawn_regs (s : State) : (s.drawn).regs = s.regs := rfl
@[simp] theorem State.drawn_zeroPlace (s : State) : (s.drawn).zeroPlace = s.zeroPlace := rfl
@[simp] theorem State.drawn_getReg (s : State) (q : Reg) : (s.drawn).getReg q = s.getReg q := rfl
@[simp] theorem State.drawn_pc (s : State) : (s.drawn).pc = s.pc := rfl
@[simp] theorem State.drawn_u (s : State) : (s.drawn).u = s.u := by simp [State.u]
@[simp] theorem State.drawn_mapped (s : State) (a : Word) : (s.drawn).mapped a = s.mapped a := by simp [State.mapped]
@[simp] theorem State.drawn_byteAt (s : State) (a : Word) : (s.drawn).byteAt a = s.byteAt a := by simp [State.byteAt]

/-! ## Registers -/

@[simp] theorem State.getReg_zero (s : State) : s.getReg Reg.zero = 0 := rfl

theorem State.getReg_of_ne (s : State) {q : Reg} (h : q ≠ Reg.zero) : s.getReg q = s.regs[q] := by
  simp [State.getReg, h]

/-- R13, R22: what every register reads after one is written. -/
theorem State.getReg_setReg (s : State) (r q : Reg) (v : Word) :
    (s.setReg r v).getReg q = if q = Reg.zero then 0 else if q = r then v else s.getReg q := by
  by_cases hq : q = Reg.zero
  · simp [State.getReg, hq]
  by_cases hr : r = Reg.zero
  · simp [State.setReg, State.getReg, hq, hr]
  · by_cases h : q = r
    · subst h
      simp [State.setReg, State.getReg, hq]
    · have h' : r.val ≠ q.val := fun e => h (Fin.ext e.symm)
      simp only [State.setReg, State.getReg, hq, hr, h, if_false]
      exact Vector.getElem_set_ne _ _ h'

/-- R24: what every register reads after the program counter is advanced. -/
theorem State.getReg_advance (s : State) (n : Nat) (q : Reg) :
    (s.advance n).getReg q = if q = Reg.pc then s.pc + BitVec.ofNat 32 n else s.getReg q := by
  rw [State.advance, State.getReg_setReg]
  by_cases hq : q = Reg.zero
  · subst hq; simp [show Reg.zero ≠ Reg.pc by decide]
  · simp [hq]

@[simp] theorem State.pc_advance (s : State) (n : Nat) : (s.advance n).pc = s.pc + BitVec.ofNat 32 n := by
  simp [State.pc, State.getReg_advance]

/-- A write to a register leaves the place of register 0 alone. -/
@[simp] theorem State.setReg_zeroPlace (s : State) (r : Reg) (v : Word) :
    (s.setReg r v).zeroPlace = s.zeroPlace := by
  unfold State.setReg
  split
  · rfl
  · rename_i h
    have h' : r.val ≠ Reg.zero.val := fun e => h (Fin.ext e)
    exact Vector.getElem_set_ne r.isLt Reg.zero.isLt h'

@[simp] theorem State.advance_zeroPlace (s : State) (n : Nat) : (s.advance n).zeroPlace = s.zeroPlace :=
  State.setReg_zeroPlace ..

/-! ## The shapes of the computing instructions -/

theorem State.compute_getReg (s : State) (op : Compute) (rd : Reg) (a b : Word) (q : Reg) :
    (s.compute op rd a b).getReg q
      = if q = Reg.zero then 0 else if q = rd then resultOf op s.u a b else s.getReg q := by
  simp [State.compute, State.getReg_setReg]

theorem State.computePair_getReg (s : State) (op : Compute) (a b : Word) (q : Reg) :
    (s.computePair op a b).getReg q
      = if q = Reg.v1 then secondOf op s.u a b else if q = Reg.v0 then resultOf op s.u a b else s.getReg q := by
  simp only [State.computePair, State.setFlags_getReg, State.getReg_setReg]
  by_cases hq : q = Reg.zero
  · subst hq; simp [show Reg.zero ≠ Reg.v0 by decide, show Reg.zero ≠ Reg.v1 by decide]
  · simp [hq]

@[simp] theorem State.compute_sr (s : State) (op : Compute) (rd : Reg) (a b : Word) :
    (s.compute op rd a b).sr = { s.sr with flags := (flagsOf op s.u a b).section } := by
  simp [State.compute]
@[simp] theorem State.compute_mem (s : State) (op : Compute) (rd : Reg) (a b : Word) : (s.compute op rd a b).mem = s.mem := by simp [State.compute]
@[simp] theorem State.compute_brk (s : State) (op : Compute) (rd : Reg) (a b : Word) : (s.compute op rd a b).brk = s.brk := by simp [State.compute]
@[simp] theorem State.compute_out (s : State) (op : Compute) (rd : Reg) (a b : Word) : (s.compute op rd a b).out = s.out := by simp [State.compute]
@[simp] theorem State.compute_oraclePos (s : State) (op : Compute) (rd : Reg) (a b : Word) : (s.compute op rd a b).oraclePos = s.oraclePos := by simp [State.compute]
@[simp] theorem State.compute_status (s : State) (op : Compute) (rd : Reg) (a b : Word) : (s.compute op rd a b).status = s.status := by simp [State.compute]
@[simp] theorem State.compute_params (s : State) (op : Compute) (rd : Reg) (a b : Word) : (s.compute op rd a b).params = s.params := by simp [State.compute]
@[simp] theorem State.compute_byteAt (s : State) (op : Compute) (rd : Reg) (a b : Word) (x : Word) : (s.compute op rd a b).byteAt x = s.byteAt x := by
  simp [State.byteAt]
@[simp] theorem State.compute_zeroPlace (s : State) (op : Compute) (rd : Reg) (a b : Word) :
    (s.compute op rd a b).zeroPlace = s.zeroPlace := by
  simp [State.compute]

@[simp] theorem State.computePair_sr (s : State) (op : Compute) (a b : Word) :
    (s.computePair op a b).sr = { s.sr with flags := (flagsOf op s.u a b).section } := by
  simp [State.computePair]
@[simp] theorem State.computePair_mem (s : State) (op : Compute) (a b : Word) : (s.computePair op a b).mem = s.mem := by simp [State.computePair]
@[simp] theorem State.computePair_brk (s : State) (op : Compute) (a b : Word) : (s.computePair op a b).brk = s.brk := by simp [State.computePair]
@[simp] theorem State.computePair_out (s : State) (op : Compute) (a b : Word) : (s.computePair op a b).out = s.out := by simp [State.computePair]
@[simp] theorem State.computePair_oraclePos (s : State) (op : Compute) (a b : Word) : (s.computePair op a b).oraclePos = s.oraclePos := by simp [State.computePair]
@[simp] theorem State.computePair_status (s : State) (op : Compute) (a b : Word) : (s.computePair op a b).status = s.status := by simp [State.computePair]
@[simp] theorem State.computePair_params (s : State) (op : Compute) (a b : Word) : (s.computePair op a b).params = s.params := by simp [State.computePair]
@[simp] theorem State.computePair_byteAt (s : State) (op : Compute) (a b : Word) (x : Word) : (s.computePair op a b).byteAt x = s.byteAt x := by
  simp [State.byteAt]
@[simp] theorem State.computePair_zeroPlace (s : State) (op : Compute) (a b : Word) :
    (s.computePair op a b).zeroPlace = s.zeroPlace := by
  simp [State.computePair]

end Sys2Proof.Machine
end

