-- ==== Sys2Proof/Laws/Ops.lean ====
section
/-! SUPPORT. One lemma per shared operation that says everything it can do: finding an unmapped byte, reading and writing
bytes and data, ending an instruction, fetching. -/

namespace Sys2Proof.Machine

/-! ## Mapped and unmapped bytes -/

theorem State.firstUnmapped_eq_none {s : State} {addr : Word} {n : Nat} :
    s.firstUnmapped addr n = none ↔ ∀ k < n, s.mapped (addr + BitVec.ofNat 32 k) = true := by
  simp only [State.firstUnmapped, List.find?_eq_none, mem_addresses, Bool.not_eq_true', Bool.not_eq_false]
  exact ⟨fun h k hk => h _ ⟨k, hk, rfl⟩, fun h a ⟨k, hk, e⟩ => e ▸ h k hk⟩

/-- R56, R57: the address a fault reports is the lowest-indexed unmapped byte. -/
theorem State.firstUnmapped_eq_some {s : State} {addr a : Word} {n : Nat} :
    s.firstUnmapped addr n = some a ↔
      ∃ k < n, a = addr + BitVec.ofNat 32 k ∧ s.mapped a = false ∧
        ∀ j < k, s.mapped (addr + BitVec.ofNat 32 j) = true := by
  simp only [State.firstUnmapped, addresses, List.find?_map, Option.map_eq_some_iff, List.find?_range_eq_some,
    Function.comp_apply, Bool.not_eq_true', Bool.not_eq_false', List.mem_range]
  constructor
  · rintro ⟨k, ⟨hk, hkn, hj⟩, rfl⟩
    exact ⟨k, hkn, rfl, hk, hj⟩
  · rintro ⟨k, hkn, rfl, hk, hj⟩
    exact ⟨k, ⟨hk, hkn, hj⟩, rfl⟩

theorem State.firstUnmapped_congr {s t : State} (h : t.params = s.params) (addr : Word) (n : Nat) :
    t.firstUnmapped addr n = s.firstUnmapped addr n := by
  simp [State.firstUnmapped, State.mapped, h]

/-! ## Reading -/

theorem State.readBytes_eq_ok {s : State} {f : Word → Cause} {addr : Word} {n : Nat} {bs : List Byte} :
    s.readBytes f addr n = .ok bs ↔
      (∀ k < n, s.mapped (addr + BitVec.ofNat 32 k) = true) ∧ bs = (addresses addr n).map s.byteAt := by
  unfold State.readBytes
  rw [← State.firstUnmapped_eq_none]
  cases s.firstUnmapped addr n <;> simp [eq_comm]

theorem State.readBytes_eq_error {s : State} {f : Word → Cause} {addr : Word} {n : Nat} {c : Cause} :
    s.readBytes f addr n = .error c ↔ ∃ a, s.firstUnmapped addr n = some a ∧ c = f a := by
  unfold State.readBytes
  cases s.firstUnmapped addr n <;> simp [eq_comm]

theorem State.memRead_eq_ok {s : State} {addr : Word} {n : Nat} {v : Word} :
    s.memRead addr n = .ok v ↔
      (∀ k < n, s.mapped (addr + BitVec.ofNat 32 k) = true) ∧
        v = assemble s.params.byteOrder ((addresses addr n).map s.byteAt) := by
  unfold State.memRead
  cases h : s.readBytes (fun a => .memFault a .read) addr n with
  | error c =>
    obtain ⟨a, ha, -⟩ := State.readBytes_eq_error.1 h
    simp only [reduceCtorEq, false_iff, not_and]
    intro hall
    rw [State.firstUnmapped_eq_none.2 hall] at ha
    cases ha
  | ok bs =>
    obtain ⟨hall, rfl⟩ := State.readBytes_eq_ok.1 h
    exact ⟨fun e => ⟨hall, (Except.ok.inj e).symm⟩, fun e => congrArg Except.ok e.2.symm⟩

theorem State.memRead_eq_error {s : State} {addr : Word} {n : Nat} {c : Cause} :
    s.memRead addr n = .error c ↔ ∃ a, s.firstUnmapped addr n = some a ∧ c = .memFault a .read := by
  unfold State.memRead
  cases h : s.readBytes (fun a => .memFault a .read) addr n with
  | error c' => simp [← State.readBytes_eq_error (f := fun a => Cause.memFault a .read), h]
  | ok bs => simp [← State.readBytes_eq_error (f := fun a => Cause.memFault a .read), h]

/-! ## The bytes of a datum -/

/-- One more byte on the right of what is assembled so far. -/
theorem assemble_step {w : Nat} (x : BitVec w) (b : Byte) :
    (x.setWidth 32 <<< 8) ||| b.setWidth 32 = (x ++ b).setWidth 32 := by
  apply BitVec.eq_of_getLsbD_eq
  intro i hi
  simp only [BitVec.getLsbD_or, BitVec.getLsbD_shiftLeft, BitVec.getLsbD_setWidth, BitVec.getLsbD_append]
  by_cases h : i < 8
  · simp [h, hi]
  · simp [h, hi, show i - 8 < 32 by omega, BitVec.getLsbD_of_ge b i (by omega)]

/-- R56, big: the first byte is the most significant. -/
theorem assemble_big_one (a : Byte) : assemble .big [a] = a.setWidth 32 := by
  simp [assemble]

theorem assemble_big_two (a b : Byte) : assemble .big [a, b] = (a ++ b).setWidth 32 := by
  simp only [assemble, List.foldl_cons, List.foldl_nil, BitVec.ofNat_eq_ofNat, BitVec.zero_shiftLeft, BitVec.zero_or,
    assemble_step]

theorem assemble_big_four (a b c d : Byte) : assemble .big [a, b, c, d] = a ++ b ++ c ++ d := by
  simp only [assemble, List.foldl_cons, List.foldl_nil, BitVec.ofNat_eq_ofNat, BitVec.zero_shiftLeft, BitVec.zero_or,
    assemble_step]
  exact BitVec.setWidth_eq _

/-- R56, little: the bytes the other way round. -/
theorem assemble_little (bs : List Byte) : assemble .little bs = assemble .big bs.reverse := rfl

/-- R57: the low `8n` bits are `n` bytes. -/
@[simp] theorem length_split (order : ByteOrder) (n : Nat) (v : Word) : (split order n v).length = n := by
  cases order <;> simp [split]

/-- R57, little: the byte at `a_k` is `w[8k+7 : 8k]`. -/
theorem getElem_split_little (n : Nat) (v : Word) (k : Nat) (h : k < (split .little n v).length) :
    (split .little n v)[k] = v.extractLsb' (8 * k) 8 := by
  simp [split]

/-- R57, big: the byte at `a_k` is `w[8(n-k)-1 : 8(n-k-1)]`. -/
theorem getElem_split_big (n : Nat) (v : Word) (k : Nat) (h : k < (split .big n v).length) :
    (split .big n v)[k] = v.extractLsb' (8 * (n - 1 - k)) 8 := by
  simp [split]

/-- The word assembled from the bytes a word is split into is the word, in either order. -/
theorem assemble_split_four (order : ByteOrder) (v : Word) : assemble order (split order 4 v) = v := by
  have e : v.extractLsb' 24 8 ++ v.extractLsb' 16 8 ++ v.extractLsb' 8 8 ++ v.extractLsb' 0 8 = v := by
    apply BitVec.eq_of_getLsbD_eq
    intro i hi
    simp only [BitVec.getLsbD_append, BitVec.getLsbD_extractLsb']
    by_cases h0 : i < 8
    · simp [h0]
    by_cases h1 : i < 16
    · simp [h0, show i - 8 < 8 by omega, show 8 + (i - 8) = i by omega]
    by_cases h2 : i < 24
    · simp [h0, show ¬ i - 8 < 8 by omega, show i - 8 - 8 < 8 by omega, show 16 + (i - 8 - 8) = i by omega]
    · simp [h0, show ¬ i - 8 < 8 by omega, show ¬ i - 8 - 8 < 8 by omega, show i - 8 - 8 - 8 < 8 by omega,
        show 24 + (i - 8 - 8 - 8) = i by omega]
  cases order with
  | little =>
    rw [assemble_little]
    exact (assemble_big_four _ _ _ _).trans e
  | big => exact (assemble_big_four _ _ _ _).trans e

/-! ## Writing -/

theorem State.writeBytes_eq_ok {s t : State} {addr : Word} {bs : List Byte} :
    s.writeBytes addr bs = .ok t ↔
      (∀ k < bs.length, s.mapped (addr + BitVec.ofNat 32 k) = true) ∧ t = s.setMem (s.mem.storeBytes addr bs) := by
  unfold State.writeBytes
  rw [← State.firstUnmapped_eq_none]
  cases s.firstUnmapped addr bs.length <;> simp [eq_comm]

theorem State.writeBytes_eq_error {s : State} {addr : Word} {bs : List Byte} {c : Cause} :
    s.writeBytes addr bs = .error c ↔ ∃ a, s.firstUnmapped addr bs.length = some a ∧ c = .memFault a .write := by
  unfold State.writeBytes
  cases s.firstUnmapped addr bs.length <;> simp [eq_comm]

theorem State.memWrite_eq_ok {s t : State} {addr : Word} {n : Nat} {v : Word} :
    s.memWrite addr n v = .ok t ↔
      (∀ k < n, s.mapped (addr + BitVec.ofNat 32 k) = true) ∧
        t = s.setMem (s.mem.storeBytes addr (split s.params.byteOrder n v)) := by
  rw [State.memWrite, State.writeBytes_eq_ok, length_split]

theorem State.memWrite_eq_error {s : State} {addr : Word} {n : Nat} {v : Word} {c : Cause} :
    s.memWrite addr n v = .error c ↔ ∃ a, s.firstUnmapped addr n = some a ∧ c = .memFault a .write := by
  rw [State.memWrite, State.writeBytes_eq_error, length_split]

/-- A write to mapped addresses keeps memory canonical and within the mapped addresses. -/
theorem State.memOk_storeBytes {s : State} (h : s.memOk = true) {addr : Word} {bs : List Byte}
    (hm : ∀ k < bs.length, s.mapped (addr + BitVec.ofNat 32 k) = true) :
    (s.setMem (s.mem.storeBytes addr bs)).memOk = true := by
  simp only [State.memOk, State.setMem_mem, State.setMem_params, Bool.and_eq_true, List.all_eq_true] at h ⊢
  refine ⟨Memory.storeBytes_wf h.1 addr bs, fun c hc => ?_⟩
  rcases Memory.mem_storeBytes hc with hc | ⟨k, hk, e⟩
  · exact h.2 c hc
  · rw [e, BitVec.ofNat_toNat, BitVec.setWidth_eq]
    exact hm k hk

/-! ## Ending an instruction -/

/-- What an instruction that can fault answers: the state its pseudocode leaves, or the state before it with the status
`Faulted` (R15, R220). -/
theorem State.finish_eq_next {s t : State} {r : Except Cause State} :
    s.finish r = .next t ↔ r = .ok t ∨ ∃ c, r = .error c ∧ t = s.setStatus (.faulted c s.pc) := by
  cases r <;> simp [State.finish, State.raise, eq_comm]

@[simp] theorem State.finish_ok (s t : State) : s.finish (.ok t) = .next t := rfl

@[simp] theorem State.finish_error (s : State) (c : Cause) :
    s.finish (.error c) = .next (s.setStatus (.faulted c s.pc)) := rfl

/-! ## One step -/

/-- R255: what a step of a running machine is. -/
theorem step_running {s : State} (h : s.status = .running) :
    step s = match s.fetchInstr with
      | .error cause => s.raise cause
      | .ok i => exec i s := by
  simp only [step, h] <;> rfl

/-- R255, R256: a next state comes from a running machine only, by a fault of the fetch or by executing what was
fetched. -/
theorem step_eq_next {s t : State} (h : step s = .next t) :
    s.status = .running ∧
      ((∃ c, s.fetchInstr = .error c ∧ t = s.setStatus (.faulted c s.pc)) ∨
        ∃ i, s.fetchInstr = .ok i ∧ exec i s = .next t) := by
  unfold step at h
  split at h
  · rename_i hr
    refine ⟨hr, ?_⟩
    split at h
    · rename_i c hc
      exact .inl ⟨c, hc, by simpa [State.raise, eq_comm] using h⟩
    · rename_i i hi
      exact .inr ⟨i, hi, h⟩
  · cases h
  · cases h

end Sys2Proof.Machine
end

