-- ==== Sys2Proof/Laws/PerInstr.lean ====
section
/-! SUPPORT. Per instruction: the encoder emits as many bytes as the instruction is long, and the first of them alone tells
that length (spec/30_encoding.md R81). -/

namespace Sys2Proof.Laws.EncodedLength

def Statement (i : Instr) : Prop :=
  ∃ b0 operands, encode i = b0 :: operands ∧ operands.length + 1 = i.length ∧
    ∃ f, formatOf b0 = .ok f ∧ f.length = i.length

theorem syscall : Statement (.syscall) := ⟨_, _, rfl, rfl, _, rfl, rfl⟩
theorem nop : Statement (.nop) := ⟨_, _, rfl, rfl, _, rfl, rfl⟩
theorem mov (rd rs : Reg) : Statement (.mov rd rs) := ⟨_, _, rfl, rfl, _, rfl, rfl⟩
theorem jr (rd : Reg) : Statement (.jr rd) := ⟨_, _, rfl, rfl, _, rfl, rfl⟩
theorem lw (rd rs : Reg) : Statement (.lw rd rs) := ⟨_, _, rfl, rfl, _, rfl, rfl⟩
theorem sw (rs rd : Reg) : Statement (.sw rs rd) := ⟨_, _, rfl, rfl, _, rfl, rfl⟩
theorem lb (rd rs : Reg) : Statement (.lb rd rs) := ⟨_, _, rfl, rfl, _, rfl, rfl⟩
theorem sb (rs rd : Reg) : Statement (.sb rs rd) := ⟨_, _, rfl, rfl, _, rfl, rfl⟩
theorem lh (rd rs : Reg) : Statement (.lh rd rs) := ⟨_, _, rfl, rfl, _, rfl, rfl⟩
theorem sh (rs rd : Reg) : Statement (.sh rs rd) := ⟨_, _, rfl, rfl, _, rfl, rfl⟩
theorem not (rd rs : Reg) : Statement (.not rd rs) := ⟨_, _, rfl, rfl, _, rfl, rfl⟩
theorem mul (rd rs : Reg) : Statement (.mul rd rs) := ⟨_, _, rfl, rfl, _, rfl, rfl⟩
theorem div (rd rs : Reg) : Statement (.div rd rs) := ⟨_, _, rfl, rfl, _, rfl, rfl⟩
theorem push (rs : Reg) : Statement (.push rs) := ⟨_, _, rfl, rfl, _, rfl, rfl⟩
theorem pop (rd : Reg) : Statement (.pop rd) := ⟨_, _, rfl, rfl, _, rfl, rfl⟩
theorem popf (rd : Reg) : Statement (.popf rd) := ⟨_, _, rfl, rfl, _, rfl, rfl⟩
theorem popm (rd : Reg) : Statement (.popm rd) := ⟨_, _, rfl, rfl, _, rfl, rfl⟩
theorem pushm (rs : Reg) : Statement (.pushm rs) := ⟨_, _, rfl, rfl, _, rfl, rfl⟩
theorem and (rd rs rt : Reg) : Statement (.and rd rs rt) := ⟨_, _, rfl, rfl, _, rfl, rfl⟩
theorem or (rd rs rt : Reg) : Statement (.or rd rs rt) := ⟨_, _, rfl, rfl, _, rfl, rfl⟩
theorem xor (rd rs rt : Reg) : Statement (.xor rd rs rt) := ⟨_, _, rfl, rfl, _, rfl, rfl⟩
theorem sll (rd rs : Reg) (shamt : Nat) : Statement (.sll rd rs shamt) := ⟨_, _, rfl, rfl, _, rfl, rfl⟩
theorem srl (rd rs : Reg) (shamt : Nat) : Statement (.srl rd rs shamt) := ⟨_, _, rfl, rfl, _, rfl, rfl⟩
theorem sra (rd rs : Reg) (shamt : Nat) : Statement (.sra rd rs shamt) := ⟨_, _, rfl, rfl, _, rfl, rfl⟩
theorem sllv (rd rs rt : Reg) : Statement (.sllv rd rs rt) := ⟨_, _, rfl, rfl, _, rfl, rfl⟩
theorem srlv (rd rs rt : Reg) : Statement (.srlv rd rs rt) := ⟨_, _, rfl, rfl, _, rfl, rfl⟩
theorem srav (rd rs rt : Reg) : Statement (.srav rd rs rt) := ⟨_, _, rfl, rfl, _, rfl, rfl⟩
theorem add (rd rs rt : Reg) : Statement (.add rd rs rt) := ⟨_, _, rfl, rfl, _, rfl, rfl⟩
theorem sub (rd rs rt : Reg) : Statement (.sub rd rs rt) := ⟨_, _, rfl, rfl, _, rfl, rfl⟩
theorem li (rd : Reg) (immed : BitVec 16) : Statement (.li rd immed) := ⟨_, _, rfl, rfl, _, rfl, rfl⟩
theorem lui (rd : Reg) (immed : BitVec 16) : Statement (.lui rd immed) := ⟨_, _, rfl, rfl, _, rfl, rfl⟩
theorem beq (rd rs : Reg) (immed : Int) : Statement (.beq rd rs immed) := ⟨_, _, rfl, rfl, _, rfl, rfl⟩

end Sys2Proof.Laws.EncodedLength
end

