-- ==== Sys2Proof/Tests/Slice0.lean ====
section
/-! SUPPORT. Tests. Every expected value is from outside the model: the words are written out from the figures and opcodes
of spec/30_encoding.md (R82 to R85, R95), and a name or comment `V<n>` is a vector of spec/95_test_vectors.md. The last part
shows, for every statement with hypotheses, a state and operands that meet them. -/

namespace Sys2Proof.Tests

open Sys2Proof.Machine Sys2Proof.Claims

/-! ## Well-formedness -/

theorem test_wellFormed_refuses_shamt_16 :
    (Instr.sll 8 9 16).wellFormed = false ∧ (Instr.srl 8 9 16).wellFormed = false ∧
      (Instr.sra 8 9 16).wellFormed = false := by decide
theorem test_wellFormed_refuses_offset_past_32767 : (Instr.beq 8 9 32768).wellFormed = false := by decide
theorem test_wellFormed_refuses_offset_below_32768 : (Instr.beq 8 9 (-32769)).wellFormed = false := by decide
theorem test_wellFormed_takes_the_ends :
    (Instr.sll 8 9 15).wellFormed = true ∧ (Instr.beq 8 9 32767).wellFormed = true ∧
      (Instr.beq 8 9 (-32768)).wellFormed = true := by decide

/-! ## Decoding: marker, opcode, then the fields, bit by bit. A field that is not used is not 0 here (R89). -/

theorem test_decode_syscall : decode [0b00000000] = .ok (.syscall, []) := by decide
theorem test_decode_nop : decode [0b00000001] = .ok (.nop, []) := by decide
theorem test_decode_mov : decode [0b11000000, 0b10011010] = .ok (.mov 9 10, []) := by decide
theorem test_decode_jr : decode [0b11000001, 0b01011111] = .ok (.jr 5, []) := by decide
theorem test_decode_lw : decode [0b11000010, 0b10111001] = .ok (.lw 11 9, []) := by decide
theorem test_decode_sw : decode [0b11000011, 0b10011000] = .ok (.sw 8 9, []) := by decide
theorem test_decode_lb : decode [0b11000100, 0b10101001] = .ok (.lb 10 9, []) := by decide
theorem test_decode_sb : decode [0b11000101, 0b10011000] = .ok (.sb 8 9, []) := by decide
theorem test_decode_lh : decode [0b11000110, 0b10101001] = .ok (.lh 10 9, []) := by decide
theorem test_decode_sh : decode [0b11000111, 0b10011000] = .ok (.sh 8 9, []) := by decide
theorem test_decode_not : decode [0b11001000, 0b10001001] = .ok (.not 8 9, []) := by decide
theorem test_decode_mul : decode [0b11001001, 0b10001001] = .ok (.mul 8 9, []) := by decide
theorem test_decode_div : decode [0b11001010, 0b10001001] = .ok (.div 8 9, []) := by decide
theorem test_decode_push : decode [0b11001011, 0b11111000] = .ok (.push 8, []) := by decide
theorem test_decode_pop : decode [0b11001100, 0b10110110] = .ok (.pop 11, []) := by decide
theorem test_decode_popf : decode [0b11001101, 0b10110110] = .ok (.popf 11, []) := by decide
theorem test_decode_popm : decode [0b11001110, 0b01010110] = .ok (.popm 5, []) := by decide
theorem test_decode_pushm : decode [0b11001111, 0b01011010] = .ok (.pushm 10, []) := by decide
theorem test_decode_and : decode [0b11100000, 0b10001001, 0b10101111] = .ok (.and 8 9 10, []) := by decide
theorem test_decode_or : decode [0b11100001, 0b10001001, 0b10101111] = .ok (.or 8 9 10, []) := by decide
theorem test_decode_xor : decode [0b11100010, 0b10001001, 0b10101111] = .ok (.xor 8 9 10, []) := by decide
theorem test_decode_sll : decode [0b11100100, 0b10001001, 0b11110100] = .ok (.sll 8 9 4, []) := by decide
theorem test_decode_srl : decode [0b11100101, 0b10001001, 0b11110100] = .ok (.srl 8 9 4, []) := by decide
theorem test_decode_sra : decode [0b11100110, 0b10001001, 0b11111111] = .ok (.sra 8 9 15, []) := by decide
theorem test_decode_sllv : decode [0b11100111, 0b10001001, 0b10101111] = .ok (.sllv 8 9 10, []) := by decide
theorem test_decode_srlv : decode [0b11101000, 0b10001001, 0b10101111] = .ok (.srlv 8 9 10, []) := by decide
theorem test_decode_srav : decode [0b11101001, 0b10001001, 0b10101111] = .ok (.srav 8 9 10, []) := by decide
theorem test_decode_add : decode [0b11101010, 0b10001001, 0b10101111] = .ok (.add 8 9 10, []) := by decide
theorem test_decode_sub : decode [0b11101011, 0b10001001, 0b10101111] = .ok (.sub 8 9 10, []) := by decide
theorem test_decode_li : decode [0b11110000, 0b10001111, 0b01010110, 0b01111000] = .ok (.li 8 0x5678, []) := by decide
theorem test_decode_lui : decode [0b11110001, 0b10001111, 0b00010010, 0b00110100] = .ok (.lui 8 0x1234, []) := by decide
theorem test_decode_beq : decode [0b11110010, 0b10011000, 0b11111111, 0b11110010] = .ok (.beq 9 8 (-14), []) := by decide

/-- V181, one first byte of each illegal class, refused by name. -/
theorem test_decode_refuses_illegal :
    decode [0x02] = .error (.illegal 0x02 (.noOpcode 1)) ∧ decode [0x80] = .error (.illegal 0x80 .noMarker) ∧
    decode [0xD0] = .error (.illegal 0xD0 (.noOpcode 2)) ∧ decode [0xE3] = .error (.illegal 0xE3 (.noOpcode 3)) ∧
    decode [0xF3] = .error (.illegal 0xF3 (.noOpcode 4)) ∧ decode [0xF8] = .error (.illegal 0xF8 (.noFormat 5)) ∧
    decode [0xFC] = .error (.illegal 0xFC (.noFormat 6)) ∧ decode [0xFE] = .error (.illegal 0xFE .noMarker) := by decide

/-- The encoder emits 0 in the fields that are not used (R89, R101): V60, V15 and V90 as an assembler writes them. -/
theorem test_encode_unused_fields :
    encode (.push 8) = [0xCB, 0x08] ∧ encode (.jr 5) = [0xC1, 0x50] ∧ encode (.sll 8 9 4) = [0xE4, 0x89, 0x04] := by decide

/-- The table's own `match` of `beq` (0xF2000000) and `nop` (0x01). -/
theorem test_table_words :
    decodeTableWord 32 0xF2000000 = some (.beq 0 0 0) ∧ decodeTableWord 8 0x01 = some .nop ∧
      decodeTableWord 8 0xE3 = none := by decide

/-! ## One step -/

/-- A running machine at the reset defaults, with `code` at `a`, the program counter there, and some registers and data
bytes set (the conventions of spec/95_test_vectors.md). -/
def machine (order : ByteOrder) (a : Word) (code : List Byte) (regs : List (Reg × Word))
    (data : List (Word × List Byte)) : State :=
  let s := State.load { defaultSetup with entry := a, params := { defaultParams with byteOrder := order } }
  let s := regs.foldl (fun s r => s.setReg r.1 r.2) s
  s.setMem (data.foldl (fun m d => m.storeBytes d.1 d.2) (s.mem.storeBytes a code))

/-- `machine` in the big order with the instruction at 0x0100. -/
def big (code : List Byte) (regs : List (Reg × Word)) (data : List (Word × List Byte)) : State :=
  machine .big 0x100 code regs data

/-- The same with U set. -/
def setU (s : State) : State := s.setModifiers 1

/-- Every address is mapped. -/
def allMapped (s : State) : State := { s with params := { s.params with mapped := [{ base := 0, size := 2 ^ 32 }] } }

/-- The answer is a next state with this property. -/
def gives (r : Result) (p : State → Bool) : Bool :=
  match r with
  | .next t => p t
  | .fault _ => false
  | .refused _ => false

/-- The register values, the flags and a running status. -/
def has (regs : List (Reg × Word)) (fl : BitVec 8) (t : State) : Bool :=
  regs.all (fun r => t.getReg r.1 == r.2) && t.sr.flags == fl && t.status == .running

/-- A service completes in a state with this property. -/
def completes (r : Except Cause State) (p : State → Bool) : Bool :=
  match r with
  | .ok t => p t
  | .error _ => false

/-- The bytes at an address. -/
def bytes (t : State) (a : Word) (bs : List Byte) : Bool := (addresses a bs.length).map t.byteAt == bs

/-- V2, with U set: the program counter wraps. -/
theorem test_nop_keeps_U_at_the_top :
    gives (step (setU <| allMapped (machine .big 0xFFFFFFFF [0x01] [] [])))
      (fun t => has [(4, 0)] 0 t && t.sr.modifiers == 1) = true := by decide
/-- V12. -/
theorem test_mov_reads_the_advanced_pc :
    gives (step (machine .big 0x10 [0xC0, 0x84] [] []))
      (fun t => has [(8, 0x12)] 0 t) = true := by decide
/-- V14. -/
theorem test_mov_to_zero_is_discarded :
    gives (step (big [0xC0, 0x08] [(8, 5)] []))
      (fun t => has [(0, 0), (4, 0x102)] 0 t) = true := by decide
/-- V17. -/
theorem test_jr_pc :
    gives (step (big [0xC1, 0x40] [] []))
      (fun t => has [(4, 0x102)] 0 t) = true := by decide
/-- V30. -/
theorem test_lw_little_misaligned :
    gives (step (machine .little 0x100 [0xC2, 0xB9] [(9, 0x201)] [(0x200, [0xAA, 0x12, 0x34, 0x56, 0x78, 0xBB])]))
      (fun t => has [(11, 0x78563412)] 0 t) = true := by decide
/-- V33. -/
theorem test_lw_wraps :
    gives (step (allMapped (big [0xC2, 0xB9] [(9, 0xFFFFFFFE)] [(0xFFFFFFFE, [0x12, 0x34, 0x56, 0x78])])))
      (fun t => has [(11, 0x12345678)] 0 t) = true := by decide
/-- V31. -/
theorem test_sw_little_misaligned :
    gives (step (machine .little 0x100 [0xC3, 0x98] [(9, 0x201), (8, 0x12345678)] [(0x200, [0xAA, 0xAA, 0xAA, 0xAA, 0xAA, 0xAA])]))
      (fun t => bytes t 0x200 [0xAA, 0x78, 0x56, 0x34, 0x12, 0xAA]) = true := by decide
/-- V186. -/
theorem test_sw_faults_whole :
    gives (step (big [0xC3, 0x98] [(9, 0xFFFE), (8, 0x12345678)] [(0xFFFE, [0xAA, 0xBB])]))
      (fun t => bytes t 0xFFFE [0xAA, 0xBB] && t.pc == 0x100 && t.status == .faulted (.memFault 0x10000 .write) 0x100) = true := by decide
/-- V26. -/
theorem test_lb_sign_extends :
    gives (step (big [0xC4, 0xA9] [(9, 0x200)] [(0x200, [0x80])]))
      (fun t => has [(10, 0xFFFFFF80)] 0 t) = true := by decide
/-- V27. -/
theorem test_lb_zero_extends_with_U :
    gives (step (setU (big [0xC4, 0xA9] [(9, 0x200)] [(0x200, [0x80])])))
      (fun t => has [(10, 0x80)] 0 t) = true := by decide
/-- V25. -/
theorem test_sb_stores_one_byte :
    gives (step (big [0xC5, 0x98] [(9, 0x200), (8, 0x12345678)] [(0x200, [0xFF, 0xFF])]))
      (fun t => bytes t 0x200 [0x78, 0xFF]) = true := by decide
/-- V28. -/
theorem test_lh_little_sign_extends :
    gives (step (machine .little 0x100 [0xC6, 0xA9] [(9, 0x200)] [(0x200, [0x01, 0x80])]))
      (fun t => has [(10, 0xFFFF8001)] 0 t) = true := by decide
/-- V29. -/
theorem test_lh_zero_extends_with_U :
    gives (step (setU (big [0xC6, 0xA9] [(9, 0x200)] [(0x200, [0x80, 0x01])])))
      (fun t => has [(10, 0x8001)] 0 t) = true := by decide
/-- V23. -/
theorem test_sh_stores_two_bytes :
    gives (step (big [0xC7, 0x98] [(9, 0x200), (8, 0x12345678)] [(0x200, [0xFF, 0xFF, 0xFF])]))
      (fun t => bytes t 0x200 [0x56, 0x78, 0xFF]) = true := by decide
/-- V40. -/
theorem test_not_complements_rs :
    gives (step (big [0xC8, 0x89] [(9, 0xFFFF)] []))
      (fun t => has [(8, 0xFFFF0000), (9, 0xFFFF)] 2 t) = true := by decide
/-- V44. -/
theorem test_mul_signed :
    gives (step (big [0xC9, 0x89] [(8, 0xFFFFFFFF), (9, 2)] []))
      (fun t => has [(6, 0xFFFFFFFE), (7, 0xFFFFFFFF), (8, 0xFFFFFFFF)] 2 t) = true := by decide
/-- V45. -/
theorem test_mul_unsigned :
    gives (step (setU (big [0xC9, 0x89] [(8, 0xFFFFFFFF), (9, 2)] [])))
      (fun t => has [(6, 0xFFFFFFFE), (7, 1)] 0 t) = true := by decide
/-- V51. -/
theorem test_div_toward_zero :
    gives (step (big [0xCA, 0x89] [(8, 0xFFFFFFF9), (9, 2)] []))
      (fun t => has [(6, 0xFFFFFFFD), (7, 0xFFFFFFFF)] 2 t) = true := by decide
/-- V56. -/
theorem test_div_overflows :
    gives (step (big [0xCA, 0x89] [(8, 0x80000000), (9, 0xFFFFFFFF)] []))
      (fun t => has [(6, 0x80000000), (7, 0)] 3 t) = true := by decide
/-- V60. -/
theorem test_push_little :
    gives (step (machine .little 0x100 [0xCB, 0x08] [(2, 0xFFFC), (8, 0x12345678)] []))
      (fun t => has [(2, 0xFFF8)] 0 t && bytes t 0xFFFC [0x78, 0x56, 0x34, 0x12]) = true := by decide
/-- V63. -/
theorem test_push_sp_stores_the_value_before :
    gives (step (big [0xCB, 0x02] [(2, 0xFFFC)] []))
      (fun t => has [(2, 0xFFF8)] 0 t && bytes t 0xFFFC [0, 0, 0xFF, 0xFC]) = true := by decide
/-- V64. -/
theorem test_pop_sp_leaves_the_value :
    gives (step (big [0xCC, 0x20] [(2, 0xFFF8)] [(0xFFFC, [0x00, 0x00, 0x12, 0x34])]))
      (fun t => has [(2, 0x1234)] 0 t) = true := by decide
/-- V189. -/
theorem test_pop_of_the_empty_stack_faults :
    gives (step (big [0xCC, 0xB0] [(2, 0xFFFC), (11, 0x55)] []))
      (fun t => t.getReg 2 == 0xFFFC && t.getReg 11 == 0x55 && t.status == .faulted (.memFault 0x10000 .read) 0x100) = true := by decide
/-- V71. -/
theorem test_popf :
    gives (exec (.popf 11) ((big [] [] []).setFlags ⟨true, true, false, true⟩)) (has [(11, 0xD)] 0xD) = true := by decide
/-- V72. -/
theorem test_popm :
    gives (step (setU (big [0xCE, 0x50] [] [])))
      (fun t => has [(5, 1)] 0 t && t.u) = true := by decide
/-- V75. -/
theorem test_pushm_takes_four_bits :
    gives (step (big [0xCF, 0x0A] [(10, 0x12345)] []))
      (fun t => t.sr.modifiers == 0b0101 && t.u) = true := by decide
/-- V81. -/
theorem test_and_writes_Z :
    gives (step (big [0xE0, 0x89, 0x00] [(9, 0xFF0F)] []))
      (fun t => has [(8, 0)] 8 t) = true := by decide
/-- V82. -/
theorem test_or :
    gives (step (big [0xE1, 0x89, 0xA0] [(9, 0x80000000), (10, 1)] []))
      (fun t => has [(8, 0x80000001)] 2 t) = true := by decide
/-- V83. -/
theorem test_xor :
    gives (step (big [0xE2, 0x89, 0xA0] [(9, 0xFFFF), (10, 0xFF0)] []))
      (fun t => has [(8, 0xF00F)] 0 t) = true := by decide
/-- V91. -/
theorem test_sll_by_15 :
    gives (step (big [0xE4, 0x89, 0x0F] [(9, 0x10001)] []))
      (fun t => has [(8, 0x80008000)] 2 t) = true := by decide
/-- V94. -/
theorem test_srl :
    gives (step (big [0xE5, 0x89, 0x04] [(9, 0x80000010)] []))
      (fun t => has [(8, 0x8000001)] 0 t) = true := by decide
/-- V97. -/
theorem test_sra_with_U :
    gives (step (setU (big [0xE6, 0x89, 0x04] [(9, 0x80000010)] [])))
      (fun t => has [(8, 0xF8000001)] 2 t) = true := by decide
/-- V102. -/
theorem test_sllv_by_33 :
    gives (step (big [0xE7, 0x89, 0xA0] [(9, 1), (10, 33)] []))
      (fun t => has [(8, 2)] 0 t) = true := by decide
/-- V104. -/
theorem test_srlv :
    gives (step (big [0xE8, 0x89, 0xA0] [(9, 0x80000000), (10, 31)] []))
      (fun t => has [(8, 1)] 0 t) = true := by decide
/-- V105. -/
theorem test_srav :
    gives (step (big [0xE9, 0x89, 0xA0] [(9, 0x80000000), (10, 31)] []))
      (fun t => has [(8, 0xFFFFFFFF)] 2 t) = true := by decide
/-- V113. -/
theorem test_add_carry_and_overflow :
    gives (step (big [0xEA, 0x89, 0xA0] [(9, 0x80000000), (10, 0x80000000)] []))
      (fun t => has [(8, 0)] 0xD t) = true := by decide
/-- V116. -/
theorem test_add_to_pc :
    gives (step (big [0xEA, 0x44, 0x90] [(9, 0x10)] []))
      (fun t => has [(4, 0x113)] 0 t) = true := by decide
/-- V121. -/
theorem test_sub_borrow :
    gives (step (big [0xEB, 0x89, 0xA0] [(9, 0), (10, 1)] []))
      (fun t => has [(8, 0xFFFFFFFF)] 6 t) = true := by decide
/-- V123. -/
theorem test_sub_overflow :
    gives (step (big [0xEB, 0x89, 0xA0] [(9, 0x7FFFFFFF), (10, 0xFFFFFFFF)] []))
      (fun t => has [(8, 0x80000000)] 7 t) = true := by decide
/-- V132. -/
theorem test_li_keeps_the_upper_half :
    gives (step (big [0xF0, 0x80, 0x00, 0x00] [(8, 0xABCD1234)] []))
      (fun t => has [(8, 0xABCD0000)] 0 t) = true := by decide
/-- V145. -/
theorem test_li_wraps_in_memory :
    gives (step (allMapped (machine .big 0xFFFFFFFE [0xF0, 0x80, 0x00, 0x05] [] [])))
      (fun t => has [(8, 5), (4, 2)] 0 t) = true := by decide
/-- V137. -/
theorem test_lui_pc :
    gives (step (big [0xF1, 0x40, 0x00, 0x01] [] []))
      (fun t => has [(4, 0x10104)] 0 t) = true := by decide
/-- V141. -/
theorem test_beq_backward_with_U :
    gives (step (setU (machine .big 0x16 [0xF2, 0x00, 0xFF, 0xF2] [] [])))
      (fun t => has [(4, 0xC)] 0 t) = true := by decide
/-- V139. -/
theorem test_beq_not_taken :
    gives (step (machine .big 0xC [0xF2, 0x90, 0x00, 0x0A] [(9, 5)] []))
      (fun t => has [(4, 0x10)] 0 t) = true := by decide

/-! ## System calls, faults and the status -/

/-- V151. -/
theorem test_exit :
    gives (step (big [0x00] [(6, 0), (8, 0xFFFFFFFF)] []))
      (fun t => t.status == .halted 0xFFFFFFFF && t.pc == 0x101) = true := by decide
/-- V153. -/
theorem test_print_int_with_U :
    gives (step (setU (big [0x00] [(6, 1), (8, 0xFFFFFFFF)] [])))
      (fun t => t.out == [.printInt 0xFFFFFFFF true]) = true := by decide
/-- V155. -/
theorem test_print_str :
    gives (step (big [0x00] [(6, 3), (8, 0x200)] [(0x200, [0x48, 0x69, 0x0A, 0x00])]))
      (fun t => t.out == [.printStr [0x48, 0x69, 0x0A]]) = true := by decide
/-- V157. -/
theorem test_print_str_faults_at_the_end_of_memory :
    gives (step (big [0x00] [(6, 3), (8, 0xFFFE)] [(0xFFFE, [0x41, 0x41])]))
      (fun t => t.out == [] && t.status == .faulted (.memFault 0x10000 .read) 0x100) = true := by decide
/-- V158: with the answer given. -/
theorem test_read_int : (serviceReadInt 0x2A (big [] [(6, 4)] [])).getReg 6 = 0x2A := by decide
/-- V160: the answer and its zero byte, and no byte after them. -/
theorem test_read_str :
    completes (serviceReadStr (fun _ => [0x6F, 0x6B, 0x0A]) (big [] [(6, 6), (8, 0x300), (9, 0x10)] [(0x300, [0xFF, 0xFF, 0xFF, 0xFF, 0xFF])]))
      (fun t => bytes t 0x300 [0x6F, 0x6B, 0x0A, 0, 0xFF] && t.getReg 6 == 6) = true := by decide
/-- V163: all of it or a fault. -/
theorem test_read_str_faults_whole :
    (match serviceReadStr (fun _ => [0x61, 0x62, 0x63]) (big [] [(6, 6), (8, 0xFFFE), (9, 0x10)] []) with
     | .ok _ => false
     | .error c => c == .memFault 0x10000 .write) = true := by decide
/-- V166. -/
theorem test_sbrk_to_the_limit :
    gives (step (big [0x00] [(6, 7), (8, 0x8000)] []))
      (fun t => t.getReg 6 == 0x8000 && t.brk == 0x10000) = true := by decide
/-- V167. -/
theorem test_sbrk_past_the_limit :
    gives (step (big [0x00] [(6, 7), (8, 0x8001)] []))
      (fun t => t.getReg 6 == 7 && t.brk == 0x8000 && t.status == .faulted (.outOfMemory 0x8001) 0x100) = true := by decide
/-- V170. -/
theorem test_selector_is_all_of_v0 :
    gives (step (big [0x00] [(6, 0x7FFF0000)] []))
      (fun t => t.status == .faulted (.badSyscall 0x7FFF0000) 0x100) = true := by decide
/-- V182. -/
theorem test_illegal_at_the_last_byte :
    gives (step (machine .big 0xFFFF [0xFF] [] []))
      (fun t => t.status == .faulted (.illegalInstruction 0xFF) 0xFFFF) = true := by decide
/-- V183. -/
theorem test_fetch_cut_by_the_end_of_memory :
    gives (step (machine .big 0xFFFF [0xC2] [] []))
      (fun t => t.status == .faulted (.fetchFault 0x10000) 0xFFFF && t.pc == 0xFFFF) = true := by decide
/-- V58. -/
theorem test_div_by_zero :
    gives (step (big [0xCA, 0x89] [(8, 5)] []))
      (fun t => t.status == .faulted .divideByZero 0x100 && t.pc == 0x100 && t.sr.flags == 0) = true := by decide
/-- R256: no step after a fault. -/
theorem test_no_step_after_a_fault :
    (match step ((big [0x01] [] []).setStatus (.faulted .divideByZero 0x100)) with
     | .fault f => f == .faulted .divideByZero 0x100
     | _ => false) = true := by decide
/-- From reset with nothing placed the first byte is 0x00, `syscall`, and v0 is 0: exit with code 0 (log 5). -/
theorem test_reset_halts : gives (step State.reset) (fun t => t.status == .halted 0) = true := by decide
/-- The placed word is the one that runs: `li g0, 0x5678` (V130). -/
theorem test_withFetchWord : gives (step (State.reset.withFetchWord 32 0xF0805678)) (has [(8, 0x5678), (4, 4)] 0) = true := by decide

/-! ## Hypotheses that are met

For every statement with hypotheses, a state and operands that meet all of them, at the ends of their ranges where they
have ranges; for a statement of several clauses, one theorem a clause. -/

/-- What `gives` decides, as a proposition. -/
theorem exists_of_gives {r : Result} {P : State → Prop} [DecidablePred P] (h : gives r (fun t => decide (P t)) = true) :
    ∃ t, r = .next t ∧ P t := by
  unfold gives at h
  split at h
  · exact ⟨_, rfl, of_decide_eq_true h⟩
  · cases h
  · cases h

/-- A computing instruction at the last three mapped bytes. -/
def addAtTheEnd : State := machine .big 0xFFFD [0xEA, 0x89, 0xA0] [(9, 0xFFFFFFFF), (10, 1)] []

theorem witness_DecodeOfEncodeIsTheInstruction :
    (Instr.beq 9 8 (-32768)).wellFormed = true ∧ (Instr.sra 15 15 15).wellFormed = true := by decide

theorem witness_DecodedIsWellFormedAndTakesItsLength :
    decode [0xF2, 0x98, 0x80, 0x00, 0x01] = .ok (.beq 9 8 (-32768), [0x01]) := by decide

theorem witness_FirstByteAloneSelects : ∃ f, formatOf 0xF2 = .ok f := ⟨_, rfl⟩

theorem witness_StepExecutesTheDecodedInstruction :
    addAtTheEnd.status = .running ∧ decode [0xEA, 0x89, 0xA0] = .ok (.add 8 9 10, []) ∧
      ∀ (k : Nat) (h : k < [(0xEA : Byte), 0x89, 0xA0].length),
        addAtTheEnd.mapped (addAtTheEnd.getReg 4 + BitVec.ofNat 32 k) = true ∧
          addAtTheEnd.byteAt (addAtTheEnd.getReg 4 + BitVec.ofNat 32 k) = [(0xEA : Byte), 0x89, 0xA0][k] := by decide

theorem witness_UnmappedInstructionByteIsFetchFault_first :
    let s := machine .big 0x10000 [] [] []
    s.status = .running ∧ s.mapped (s.getReg 4) = false := by decide

theorem witness_UnmappedInstructionByteIsFetchFault_later :
    let s := machine .big 0xFFFD [0xF0, 0x80, 0x00] [] []
    s.status = .running ∧ lengthOf (s.byteAt (s.getReg 4)) = some 4 ∧ s.mapped (s.getReg 4) = true ∧
      FirstUnmapped s (s.getReg 4) 4 0x10000 :=
  ⟨by decide, by decide, by decide, 3, by decide, by decide, by decide, by unfold AllMapped; decide⟩

theorem witness_IllegalFirstByteFaults :
    let s := machine .big 0xFFFF [0xE3] [] []
    s.status = .running ∧ s.mapped (s.getReg 4) = true ∧ lengthOf (s.byteAt (s.getReg 4)) = none := by decide

theorem witness_FaultChangesOnlyTheStatus :
    ∃ t, step (big [0xCA, 0x89] [(8, 5)] []) = .next t ∧ t.status = .faulted .divideByZero 0x100 :=
  exists_of_gives (by decide)

theorem witness_StepExactlyWhenRunning :
    addAtTheEnd.status = .running ∧ ∃ t, step addAtTheEnd = .next t ∧ t.getReg 8 = 0 :=
  ⟨by decide, exists_of_gives (by decide)⟩

theorem witness_OnlyExitHalts :
    ∃ t, step (big [0x00] [(8, 0xFFFFFFFF)] []) = .next t ∧ t.status = .halted 0xFFFFFFFF :=
  exists_of_gives (by decide)

theorem witness_StepKeepsInvariant : addAtTheEnd.Inv ∧ ∃ t, step addAtTheEnd = .next t ∧ t.getReg 8 = 0 :=
  ⟨by unfold State.Inv; decide, exists_of_gives (by decide)⟩

theorem witness_StepKeepsParameters : ∃ t, step addAtTheEnd = .next t ∧ t.getReg 8 = 0 := exists_of_gives (by decide)

/-- A loader's choice with two bytes of image. -/
def smallSetup : Setup := { defaultSetup with image := [(0xFFFF, 0x12), (0, 0x34)] }

theorem witness_LoadGivesTheResetValues_unlisted :
    (∀ b : Byte, ((0xFFFE : Word).toNat, b) ∉ smallSetup.image) ∧ (State.load smallSetup).mapped 0xFFFE = true := by decide

/-- The first unmapped address, where the clause says the model's choice of log 14. -/
theorem witness_LoadGivesTheResetValues_unlisted_unmapped :
    (∀ b : Byte, ((0x10000 : Word).toNat, b) ∉ smallSetup.image) ∧
      (State.load smallSetup).mapped 0x10000 = false := by decide

theorem witness_LoadGivesTheResetValues_listed :
    (smallSetup.image.map Prod.fst).Nodup ∧ ((0xFFFF : Word).toNat, (0x12 : Byte)) ∈ smallSetup.image ∧
      (State.load smallSetup).mapped 0xFFFF = true := by decide

theorem witness_OnlyComputingInstructionsWriteFlags :
    computes (.mov 8 9) = false ∧ ∃ t, exec (.mov 8 9) addAtTheEnd = .next t ∧ t.getReg 8 = 0xFFFFFFFF :=
  ⟨by decide, exists_of_gives (by decide)⟩

theorem witness_OnlyPushmWritesModifiers :
    (∀ rs, Instr.add 8 9 10 ≠ .pushm rs) ∧ ∃ t, exec (.add 8 9 10) addAtTheEnd = .next t ∧ t.getReg 8 = 0 :=
  ⟨by decide, exists_of_gives (by decide)⟩

theorem witness_OtherInstructionsIgnoreU_instruction : usesModifiers (.sra 8 9 4) = false := by decide

theorem witness_OtherInstructionsIgnoreU_service :
    Instr.syscall = .syscall ∧ (big [0x00] [(6, 2)] []).getReg 6 ≠ 1 := by decide

theorem witness_OnlyNamedRegistersAreWritten :
    (∃ t, exec (.pop 11) (big [0xCC, 0xB0] [(2, 0xFFF8)] []) = .next t ∧ t.getReg 2 = 0xFFFC) ∧
      (10 : Reg) ≠ 4 ∧ (10 : Reg) ∉ mayWrite (.pop 11) :=
  ⟨exists_of_gives (by decide), by decide, by decide⟩

theorem witness_OnlyStoresChangeMemory :
    storesToMemory (.lw 11 9) = false ∧
      ∃ t, exec (.lw 11 9) (big [] [(9, 0xFFFC)] [(0xFFFF, [5])]) = .next t ∧ t.getReg 11 = 5 :=
  ⟨by decide, exists_of_gives (by decide)⟩

theorem witness_OnlySyscallReachesTheHost_syscall :
    ∃ t, exec .syscall (big [] [(6, 2), (8, 0x41)] []) = .next t ∧ t.out = [.printChr 0x41] :=
  exists_of_gives (by decide)

theorem witness_OnlySyscallReachesTheHost_other :
    (∃ t, exec (.add 8 9 10) addAtTheEnd = .next t ∧ t.getReg 8 = 0) ∧ Instr.add 8 9 10 ≠ .syscall :=
  ⟨exists_of_gives (by decide), by decide⟩

theorem witness_BreakOnlyRisesToTheLimit :
    let s := (big [0x00] [(6, 7)] []).setBrk 0x10000
    s.params.heapLimit < 2 ^ 32 ∧ s.brk.toNat ≤ s.params.heapLimit ∧ ∃ t, step s = .next t ∧ t.brk = 0x10000 :=
  ⟨by decide, by decide, exists_of_gives (by decide)⟩

/-- A state in which register 9 holds an address. -/
def pointing (a : Word) : State := big [] [(9, a), (8, 0x12345678)] []

theorem witness_LwLoadsAWord_mapped : AllMapped (pointing 0xFFFC) (seen (pointing 0xFFFC) 2 9) 4 := by
  unfold AllMapped; decide
theorem witness_LwLoadsAWord_unmapped : FirstUnmapped (pointing 0xFFFD) (seen (pointing 0xFFFD) 2 9) 4 0x10000 :=
  ⟨3, by decide, by decide, by decide, by unfold AllMapped; decide⟩
theorem witness_LbLoadsAByteExtendedByU_mapped : AllMapped (pointing 0xFFFF) (seen (pointing 0xFFFF) 2 9) 1 := by
  unfold AllMapped; decide
theorem witness_LbLoadsAByteExtendedByU_unmapped :
    FirstUnmapped (pointing 0x10000) (seen (pointing 0x10000) 2 9) 1 0x10000 :=
  ⟨0, by decide, by decide, by decide, by unfold AllMapped; decide⟩
theorem witness_LhLoadsAHalfExtendedByU_mapped : AllMapped (pointing 0xFFFE) (seen (pointing 0xFFFE) 2 9) 2 := by
  unfold AllMapped; decide
theorem witness_LhLoadsAHalfExtendedByU_unmapped :
    FirstUnmapped (pointing 0xFFFF) (seen (pointing 0xFFFF) 2 9) 2 0x10000 :=
  ⟨1, by decide, by decide, by decide, by unfold AllMapped; decide⟩
theorem witness_SwStoresAWord_mapped :
    AllMapped (pointing 0xFFFC) (seen (pointing 0xFFFC) 2 9) 4 ∧ (pointing 0xFFFC).mem.wf = true := by
  unfold AllMapped; decide
theorem witness_SwStoresAWord_unmapped : FirstUnmapped (pointing 0xFFFE) (seen (pointing 0xFFFE) 2 9) 4 0x10000 :=
  ⟨2, by decide, by decide, by decide, by unfold AllMapped; decide⟩
theorem witness_SbStoresAByte_mapped :
    AllMapped (pointing 0xFFFF) (seen (pointing 0xFFFF) 2 9) 1 ∧ (pointing 0xFFFF).mem.wf = true := by
  unfold AllMapped; decide
theorem witness_SbStoresAByte_unmapped : FirstUnmapped (pointing 0x10000) (seen (pointing 0x10000) 2 9) 1 0x10000 :=
  ⟨0, by decide, by decide, by decide, by unfold AllMapped; decide⟩
theorem witness_ShStoresAHalf_mapped :
    AllMapped (pointing 0xFFFE) (seen (pointing 0xFFFE) 2 9) 2 ∧ (pointing 0xFFFE).mem.wf = true := by
  unfold AllMapped; decide
theorem witness_ShStoresAHalf_unmapped : FirstUnmapped (pointing 0xFFFF) (seen (pointing 0xFFFF) 2 9) 2 0x10000 :=
  ⟨1, by decide, by decide, by decide, by unfold AllMapped; decide⟩

theorem witness_MulGivesTheWholeProduct :
    let s := setU (big [] [(8, 0xFFFFFFFF), (9, 2)] [])
    (0x1FFFFFFFE : BitVec 64) = (if U s then (seen s 2 8).setWidth 64 * (seen s 2 9).setWidth 64
      else (seen s 2 8).signExtend 64 * (seen s 2 9).signExtend 64) := by decide

theorem witness_DivGivesQuotientAndRemainder_zero : seen (big [] [(8, 5)] []) 2 9 = 0 := by decide

theorem witness_DivGivesQuotientAndRemainder_nonzero :
    let s := big [] [(8, 0x80000000), (9, 0xFFFFFFFF)] []
    let A := seen s 2 8
    let B := seen s 2 9
    B ≠ 0 ∧
      0x80000000 = (if U s then BitVec.ofNat 32 (A.toNat / B.toNat) else BitVec.ofInt 32 (A.toInt.tdiv B.toInt)) ∧
      0 = (if U s then BitVec.ofNat 32 (A.toNat % B.toNat) else BitVec.ofInt 32 (A.toInt.tmod B.toInt)) := by decide

/-- A state with a given stack pointer. -/
def stacked (sp : Word) : State := big [] [(2, sp), (8, 0x12345678)] []

theorem witness_PushStoresThenMovesSpDown_mapped :
    AllMapped (stacked 0xFFFC) ((stacked 0xFFFC).getReg 2) 4 ∧ (stacked 0xFFFC).mem.wf = true := by
  unfold AllMapped; decide
theorem witness_PushStoresThenMovesSpDown_unmapped :
    FirstUnmapped (stacked 0xFFFE) ((stacked 0xFFFE).getReg 2) 4 0x10000 :=
  ⟨2, by decide, by decide, by decide, by unfold AllMapped; decide⟩
theorem witness_PopMovesSpUpThenLoads_mapped : AllMapped (stacked 0xFFF8) ((stacked 0xFFF8).getReg 2 + 4) 4 := by
  unfold AllMapped; decide
theorem witness_PopMovesSpUpThenLoads_unmapped :
    FirstUnmapped (stacked 0xFFFC) ((stacked 0xFFFC).getReg 2 + 4) 4 0x10000 :=
  ⟨0, by decide, by decide, by decide, by unfold AllMapped; decide⟩
theorem witness_PopReturnsWhatPushStored :
    (stacked 0xFFFC).Inv ∧ AllMapped (stacked 0xFFFC) ((stacked 0xFFFC).getReg 2) 4 ∧ (8 : Reg) ≠ 0 ∧ (8 : Reg) ≠ 2 := by
  unfold State.Inv AllMapped; decide
theorem witness_LwReturnsWhatSwStored :
    (pointing 0xFFFC).Inv ∧ AllMapped (pointing 0xFFFC) (seen (pointing 0xFFFC) 2 9) 4 ∧ (11 : Reg) ≠ 0 ∧
      ∃ t, exec (.sw 8 9) (pointing 0xFFFC) = .next t ∧ seen t 2 9 = seen (pointing 0xFFFC) 2 9 :=
  ⟨by unfold State.Inv; decide, by unfold AllMapped; decide, by decide, exists_of_gives (by decide)⟩

theorem witness_BeqBranchesWhenEqual_equal : seen (pointing 0) 4 9 = seen (pointing 0) 4 0 := by decide
theorem witness_BeqBranchesWhenEqual_different : seen (pointing 1) 4 9 ≠ seen (pointing 1) 4 0 := by decide

/-- A state whose v0, g0 and g1 are given. -/
def calling (v0 g0 g1 : Word) (data : List (Word × List Byte)) : State := big [0x00] [(6, v0), (8, g0), (9, g1)] data

theorem witness_ExitHaltsWithG0 : (calling 0 5 0 []).getReg 6 = 0 := by decide
theorem witness_PrintIntAndPrintChrAppendOneEvent_int : (calling 1 5 0 []).getReg 6 = 1 := by decide
theorem witness_PrintIntAndPrintChrAppendOneEvent_chr : (calling 2 5 0 []).getReg 6 = 2 := by decide

theorem witness_PrintStrAppendsTheString_string :
    let s := calling 3 0xFFFE 0 [(0xFFFE, [0x41])]
    let bs : List Byte := [0x41]
    s.getReg 6 = 3 ∧ bs.length < 2 ^ 32 ∧ AllMapped s (s.getReg 8) (bs.length + 1) ∧
      (∀ (k : Nat) (h : k < bs.length), s.byteAt (s.getReg 8 + BitVec.ofNat 32 k) = bs[k] ∧ bs[k] ≠ 0) ∧
      s.byteAt (s.getReg 8 + BitVec.ofNat 32 bs.length) = 0 := by
  unfold AllMapped; decide

theorem witness_PrintStrAppendsTheString_unmapped :
    let s := calling 3 0xFFFE 0 [(0xFFFE, [0x41, 0x41])]
    s.getReg 6 = 3 ∧ (2 : Nat) < 2 ^ 32 ∧
      (∀ k < 2, s.mapped (s.getReg 8 + BitVec.ofNat 32 k) = true ∧ s.byteAt (s.getReg 8 + BitVec.ofNat 32 k) ≠ 0) ∧
      s.mapped (s.getReg 8 + BitVec.ofNat 32 2) = false := by decide

/-- A memory whose listed bytes are all 1 reads 1 at every listed address. -/
theorem byteAt_ones {l : List Nat} {a : Nat} (h : a ∈ l) : Memory.byteAt (l.map fun k => (k, 1)) a = 1 := by
  induction l with
  | nil => cases h
  | cons k l ih =>
    simp only [List.map_cons, Memory.byteAt]
    split
    · rfl
    · rcases List.mem_cons.1 h with rfl | h
      · contradiction
      · exact ih h

/-- A whole address space, all of it mapped, without a zero byte. -/
theorem witness_PrintStrAppendsTheString_unterminated :
    ∃ s : State, s.getReg 6 = 3 ∧ ∀ a, s.mapped a = true ∧ s.byteAt a ≠ 0 := by
  refine ⟨(allMapped (calling 3 0 0 [])).setMem ((List.range (2 ^ 32)).map fun k => (k, 1)), by decide, fun a => ⟨?_, ?_⟩⟩
  · simpa [State.mapped, allMapped, isMapped, regionHolds] using a.isLt
  · rw [State.byteAt, State.setMem_mem, byteAt_ones (List.mem_range.2 a.isLt)]
    decide

theorem witness_ReadIntAndReadChrPutTheAnswerInV0_int : (calling 4 0 0 []).getReg 6 = 4 := by decide
theorem witness_ReadIntAndReadChrPutTheAnswerInV0_chr : (calling 5 0 0 []).getReg 6 = 5 := by decide

theorem witness_ReadStrStoresTheAnswer_lawful :
    ([1, 2, 3] : List Byte).length ≤ 4 - 1 ∧ (0 : Byte) ∉ [(1 : Byte), 2, 3] := by decide
theorem witness_ReadStrStoresTheAnswer_nothing :
    (calling 6 0x300 0 []).getReg 6 = 6 ∧ (calling 6 0x300 0 []).getReg 9 = 0 := by decide

/-- At a `max size` of 1 the answer is the empty string, whatever the oracle holds. -/
theorem answer_of_one (answer : List Byte) : lawfulAnswer (1 : Word).toNat answer = [] := by simp [lawfulAnswer]

theorem witness_ReadStrStoresTheAnswer_mapped :
    let s := calling 6 0xFFFF 1 []
    s.getReg 6 = 6 ∧ s.getReg 9 ≠ 0 ∧ s.mem.wf = true ∧ ∃ str : List Byte,
      str = lawfulAnswer (s.getReg 9).toNat (Config.readStr s.oraclePos (s.getReg 9).toNat) ∧
        AllMapped s (s.getReg 8) (str.length + 1) :=
  ⟨by decide, by decide, by decide, [], (answer_of_one _).symm, by unfold AllMapped; decide⟩

theorem witness_ReadStrStoresTheAnswer_unmapped :
    let s := calling 6 0x10000 1 []
    s.getReg 6 = 6 ∧ s.getReg 9 ≠ 0 ∧ ∃ str : List Byte,
      str = lawfulAnswer (s.getReg 9).toNat (Config.readStr s.oraclePos (s.getReg 9).toNat) ∧
        FirstUnmapped s (s.getReg 8) (str.length + 1) 0x10000 :=
  ⟨by decide, by decide, [], (answer_of_one _).symm, 0, by decide, by decide, by decide, by unfold AllMapped; decide⟩

theorem witness_SbrkReturnsTheOldBreak_within :
    let s := calling 7 0x8000 0 []
    s.getReg 6 = 7 ∧ s.brk.toNat + (s.getReg 8).toNat ≤ s.params.heapLimit := by decide
theorem witness_SbrkReturnsTheOldBreak_past :
    let s := calling 7 0x8001 0 []
    s.getReg 6 = 7 ∧ s.params.heapLimit < s.brk.toNat + (s.getReg 8).toNat := by decide

/-- The corner of log 8: a limit of 2^32 and a request that carries the break exactly there. -/
theorem witness_SbrkReturnsTheOldBreak_wraps :
    let s := calling 7 0xFFFF8000 0 []
    let s := { s with params := { s.params with heapLimit := 2 ^ 32 } }
    s.getReg 6 = 7 ∧ s.brk.toNat + (s.getReg 8).toNat = 2 ^ 32 ∧
      s.brk.toNat + (s.getReg 8).toNat ≤ s.params.heapLimit ∧ s.brk + s.getReg 8 = 0 := by decide

theorem witness_UnknownSelectorFaults :
    7 < ((calling 8 0 0 []).getReg 6).toNat ∧ 7 < ((calling 0xFFFFFFFF 0 0 []).getReg 6).toNat := by decide

end Sys2Proof.Tests
end

section
/-! SUPPORT. What an instruction leaves in the run status: everything it can answer is a completion, which keeps the status
or is the exit of R201, or a fault (spec/00_scope.md R15, spec/44_system_calls.md R201). -/

namespace Sys2Proof.Machine

/-- R24: the advance changes no register but the program counter. -/
theorem State.getReg_advance_of_ne_pc {q : Reg} (h : q ≠ Reg.pc) (s : State) (n : Nat) :
    (s.advance n).getReg q = s.getReg q := by
  rw [State.getReg_advance, if_neg h]

/-! ## What a completed access leaves -/

theorem State.loadInto_eq_ok {t t' : State} {rd rs : Reg} {n : Nat} {widen : Word → Word} :
    t.loadInto rd rs n widen = .ok t' ↔ ∃ v, t.memRead (t.getReg rs) n = .ok v ∧ t' = t.setReg rd (widen v) := by
  unfold State.loadInto
  cases t.memRead (t.getReg rs) n <;> simp [eq_comm]

theorem State.status_of_loadInto {t t' : State} {rd rs : Reg} {n : Nat} {widen : Word → Word}
    (h : t.loadInto rd rs n widen = .ok t') : t'.status = t.status := by
  obtain ⟨v, -, rfl⟩ := State.loadInto_eq_ok.1 h
  exact State.setReg_status ..

theorem State.status_of_writeBytes {t t' : State} {addr : Word} {bs : List Byte} (h : t.writeBytes addr bs = .ok t') :
    t'.status = t.status := by
  obtain ⟨-, rfl⟩ := State.writeBytes_eq_ok.1 h
  exact State.setMem_status ..

theorem State.status_of_memWrite {t t' : State} {addr : Word} {n : Nat} {v : Word} (h : t.memWrite addr n v = .ok t') :
    t'.status = t.status :=
  State.status_of_writeBytes h

/-! ## What a completed service leaves -/

theorem status_of_servicePrintStr {t t' : State} (h : servicePrintStr t = .ok t') : t'.status = t.status := by
  unfold servicePrintStr at h
  split at h
  · cases h
  · obtain rfl := Except.ok.inj h
    exact State.emit_status ..

theorem status_of_serviceReadStr {answer : Nat → List Byte} {t t' : State} (h : serviceReadStr answer t = .ok t') :
    t'.status = t.status := by
  unfold serviceReadStr at h
  dsimp only at h
  split at h
  · rw [Except.ok.inj h]
  · split at h
    · cases h
    · next u hu =>
      obtain rfl := Except.ok.inj h
      exact (State.drawn_status u).trans (State.status_of_writeBytes hu)

theorem status_of_serviceSbrk {t t' : State} (h : serviceSbrk t = .ok t') : t'.status = t.status := by
  unfold serviceSbrk at h
  dsimp only at h
  split at h
  · cases h
  · obtain rfl := Except.ok.inj h
    simp

/-- R201: of the services that complete, exit alone changes the status, to `Halted` with g0. -/
theorem status_of_service {t t' : State} (h : service t = .ok t') :
    t'.status = t.status ∨ t.getReg Reg.v0 = 0 ∧ t'.status = .halted (t.getReg Reg.g0) := by
  unfold service at h
  split at h
  · next hv =>
    obtain rfl := Except.ok.inj h
    exact .inr ⟨BitVec.eq_of_toNat_eq hv, rfl⟩
  · exact .inl (Except.ok.inj h ▸ rfl)
  · exact .inl (Except.ok.inj h ▸ rfl)
  · exact .inl (status_of_servicePrintStr h)
  · exact .inl (Except.ok.inj h ▸ State.setReg_status ..)
  · exact .inl (Except.ok.inj h ▸ State.setReg_status ..)
  · exact .inl (status_of_serviceReadStr h)
  · exact .inl (status_of_serviceSbrk h)
  · cases h

/-! ## What every instruction can answer -/

/-- A result of the step that began in `s`: a completion with the status kept, or a fault (R15). -/
def KeepsStatusOrFaults (s : State) (r : Result) : Prop :=
  (∃ t, r = .next t ∧ t.status = s.status) ∨ ∃ c, r = .next (s.setStatus (.faulted c s.pc))

theorem KeepsStatusOrFaults.finish {s : State} {r : Except Cause State} (h : ∀ t, r = .ok t → t.status = s.status) :
    KeepsStatusOrFaults s (s.finish r) := by
  cases r with
  | error c => exact .inr ⟨c, rfl⟩
  | ok t => exact .inl ⟨t, rfl, h t rfl⟩

theorem KeepsStatusOrFaults.load (s : State) (rd rs : Reg) (n : Nat) (widen : Word → Word) :
    KeepsStatusOrFaults s (s.finish ((s.advance 2).loadInto rd rs n widen)) :=
  .finish fun _ h => (State.status_of_loadInto h).trans (State.advance_status ..)

theorem KeepsStatusOrFaults.store (s : State) (addr : Word) (n : Nat) (v : Word) :
    KeepsStatusOrFaults s (s.finish ((s.advance 2).memWrite addr n v)) :=
  .finish fun _ h => (State.status_of_memWrite h).trans (State.advance_status ..)

theorem execDiv_keepsStatusOrFaults (rd rs : Reg) (s : State) : KeepsStatusOrFaults s (execDiv rd rs s) := by
  unfold execDiv
  dsimp only
  split
  · exact .inr ⟨_, rfl⟩
  · exact .inl ⟨_, rfl, by simp⟩

theorem execBeq_keepsStatusOrFaults (rd rs : Reg) (immed : Int) (s : State) :
    KeepsStatusOrFaults s (execBeq rd rs immed s) := by
  unfold execBeq
  dsimp only
  split <;> exact .inl ⟨_, rfl, by simp⟩

theorem execPush_keepsStatusOrFaults (rs : Reg) (s : State) : KeepsStatusOrFaults s (execPush rs s) := by
  refine .finish fun t h => ?_
  split at h
  · cases h
  · next u hu =>
    obtain rfl := Except.ok.inj h
    simpa using State.status_of_memWrite hu

theorem execPop_keepsStatusOrFaults (rd : Reg) (s : State) : KeepsStatusOrFaults s (execPop rd s) := by
  refine .finish fun t h => ?_
  split at h
  · cases h
  · obtain rfl := Except.ok.inj h
    simp

/-- Every instruction but `syscall` keeps the status or faults. -/
theorem exec_keepsStatusOrFaults {i : Instr} (hi : i ≠ .syscall) (s : State) : KeepsStatusOrFaults s (exec i s) := by
  cases i with
  | syscall => exact absurd rfl hi
  | lw rd rs => exact .load s rd rs 4 id
  | lb rd rs => exact .load s rd rs 1 _
  | lh rd rs => exact .load s rd rs 2 _
  | sw rs rd => exact .store s _ 4 _
  | sb rs rd => exact .store s _ 1 _
  | sh rs rd => exact .store s _ 2 _
  | div rd rs => exact execDiv_keepsStatusOrFaults rd rs s
  | push rs => exact execPush_keepsStatusOrFaults rs s
  | pop rd => exact execPop_keepsStatusOrFaults rd s
  | beq rd rs immed => exact execBeq_keepsStatusOrFaults rd rs immed s
  | _ => exact .inl ⟨_, rfl, by simp⟩

/-- `syscall` keeps the status, is the exit of R201, or faults. -/
theorem execSyscall_status_cases (s : State) :
    KeepsStatusOrFaults s (execSyscall s) ∨
      s.getReg Reg.v0 = 0 ∧ ∃ t, execSyscall s = .next t ∧ t.status = .halted (s.getReg Reg.g0) := by
  unfold execSyscall
  cases h : service (s.advance 1) with
  | error c => exact .inl (.inr ⟨c, rfl⟩)
  | ok t =>
    have hv0 := State.getReg_advance_of_ne_pc (q := Reg.v0) (by decide) s 1
    have hg0 := State.getReg_advance_of_ne_pc (q := Reg.g0) (by decide) s 1
    rcases status_of_service h with ht | ⟨hv, ht⟩
    · exact .inl (.inl ⟨t, rfl, ht.trans (State.advance_status ..)⟩)
    · exact .inr ⟨hv0 ▸ hv, t, rfl, hg0 ▸ ht⟩

/-! ## The status after a step -/

/-- R15, R201, R255: after a step the machine runs on, or the step faulted and changed the status alone, or it was the
exit. -/
theorem step_status_cases {s t : State} (h : step s = .next t) :
    t.status = .running ∨ (∃ c, t = s.setStatus (.faulted c s.pc)) ∨
      s.fetchInstr = .ok .syscall ∧ s.getReg Reg.v0 = 0 ∧ t.status = .halted (s.getReg Reg.g0) := by
  obtain ⟨hrun, ⟨c, -, rfl⟩ | ⟨i, hi, hexec⟩⟩ := step_eq_next h
  · exact .inr (.inl ⟨c, rfl⟩)
  have keeps (hk : KeepsStatusOrFaults s (.next t)) :
      t.status = .running ∨ ∃ c, t = s.setStatus (.faulted c s.pc) := by
    simpa [KeepsStatusOrFaults, hrun] using hk
  by_cases hsys : i = .syscall
  · subst hsys
    rw [show exec .syscall s = execSyscall s from rfl] at hexec
    rcases execSyscall_status_cases s with hk | ⟨hv, u, hu, hst⟩
    · exact (keeps (hexec ▸ hk)).imp_right .inl
    · obtain rfl : t = u := by simpa [hexec] using hu
      exact .inr (.inr ⟨hi, hv, hst⟩)
  · exact (keeps (hexec ▸ exec_keepsStatusOrFaults hsys s)).imp_right .inl

/-- R256: a machine that is not running has no next state. -/
theorem step_ne_next_of_not_running {s : State} (h : s.status ≠ .running) (t : State) : step s ≠ .next t :=
  fun hs => h (step_eq_next hs).1

end Sys2Proof.Machine
end

section
/-! The statements of spec/00_scope.md: taking a fault (R15) and the defaults of the parameters (R8). -/

namespace Sys2Proof.Machine

/-- Settles O8: of the three ways a step can leave the status, only the fault of R15 leaves it `Faulted`. -/
theorem faultChangesOnlyTheStatus : Obligations.FaultChangesOnlyTheStatus := by
  intro s t cause a hstep hst
  have hend : ∀ u, step t ≠ .next u := step_ne_next_of_not_running (by simp [hst])
  rcases step_status_cases hstep with hrun | ⟨c, rfl⟩ | ⟨-, -, hhalt⟩
  · simp [hst] at hrun
  · obtain ⟨rfl, rfl⟩ : c = cause ∧ s.pc = a := by simpa using hst
    exact ⟨rfl, rfl, hend⟩
  · simp [hst] at hhalt

/-- The default `Mapped(a)` is `a < MEM_SIZE` (R8). -/
theorem isMapped_defaultParams (a : Word) : isMapped defaultParams a = decide (a.toNat < 0x10000) := by
  simp [isMapped, defaultParams, regionHolds, memSize]

/-- Settles O16: every conjunct is read off `defaultSetup`. -/
theorem resetUsesTheDefaults : Obligations.ResetUsesTheDefaults :=
  ⟨rfl, rfl, rfl, rfl, rfl, isMapped_defaultParams⟩

end Sys2Proof.Machine
end

section
/-! SUPPORT. What an instruction may do to the machine: whatever it answers comes from the state before it by updates that
the rules allow to that instruction (spec/10_state.md R22 to R38, spec/20_memory.md R52). The frames and the invariant are
read off this one fact. -/

namespace Sys2Proof.Machine

open Sys2Proof.Claims

/-- `Touches i s t`: from `s` to `t` by updates allowed to `i`. A store is to mapped addresses only, and at most one event
is emitted. -/
inductive Touches (i : Instr) (s : State) : State → Prop
  | refl : Touches i s s
  /-- R26: the program counter and the registers `i` names. -/
  | setReg {t : State} {r : Reg} (h : r ∈ Reg.pc :: mayWrite i) (v : Word) : Touches i s t → Touches i s (t.setReg r v)
  /-- R32. -/
  | setFlags {t : State} (h : computes i = true) (f : FlagBits) : Touches i s t → Touches i s (t.setFlags f)
  /-- R145. -/
  | setModifiers {t : State} (h : ∃ rs, i = .pushm rs) (m : BitVec 4) : Touches i s t → Touches i s (t.setModifiers m)
  /-- R52, R57. -/
  | store {t : State} (h : storesToMemory i = true) {addr : Word} {bs : List Byte}
      (hm : ∀ k < bs.length, t.mapped (addr + BitVec.ofNat 32 k) = true) :
      Touches i s t → Touches i s (t.setMem (t.mem.storeBytes addr bs))
  /-- R39: exit, or a fault. -/
  | setStatus {t : State} (st : Status) : Touches i s t → Touches i s (t.setStatus st)
  /-- R208. -/
  | setBrk {t : State} (h : i = .syscall) (b : Word) : Touches i s t → Touches i s (t.setBrk b)
  /-- R202 to R204. -/
  | emit {t : State} (h : i = .syscall) (ho : t.out = s.out) (e : Event) : Touches i s t → Touches i s (t.emit e)
  /-- R205 to R207. -/
  | drawn {t : State} (h : i = .syscall) : Touches i s t → Touches i s t.drawn

namespace Touches

variable {i : Instr} {s t u : State}

/-! ## The shared operations as updates -/

theorem setPc (v : Word) (h : Touches i s t) : Touches i s (t.setReg Reg.pc v) :=
  .setReg (List.mem_cons_self ..) v h

theorem setNamed {r : Reg} (hr : r ∈ mayWrite i) (v : Word) (h : Touches i s t) : Touches i s (t.setReg r v) :=
  .setReg (List.mem_cons_of_mem _ hr) v h

theorem advance (n : Nat) : Touches i s (s.advance n) :=
  .setPc _ .refl

theorem compute (op : Compute) {rd : Reg} (hi : computes i = true) (hrd : rd ∈ mayWrite i) (a b : Word)
    (h : Touches i s t) : Touches i s (t.compute op rd a b) :=
  .setFlags hi _ (.setNamed hrd _ h)

theorem computePair (op : Compute) (hi : computes i = true) (h0 : Reg.v0 ∈ mayWrite i) (h1 : Reg.v1 ∈ mayWrite i)
    (a b : Word) (h : Touches i s t) : Touches i s (t.computePair op a b) :=
  .setFlags hi _ (.setNamed h1 _ (.setNamed h0 _ h))

theorem writeBytes (hi : storesToMemory i = true) {addr : Word} {bs : List Byte} (hw : t.writeBytes addr bs = .ok u)
    (h : Touches i s t) : Touches i s u := by
  obtain ⟨hm, rfl⟩ := State.writeBytes_eq_ok.1 hw
  exact .store hi hm h

theorem loadInto {rd rs : Reg} {n : Nat} {widen : Word → Word} (hrd : rd ∈ mayWrite i)
    (hl : t.loadInto rd rs n widen = .ok u) (h : Touches i s t) : Touches i s u := by
  obtain ⟨v, -, rfl⟩ := State.loadInto_eq_ok.1 hl
  exact .setNamed hrd _ h

end Touches

/-! ## Every instruction -/

/-- The answer is a next state, and reached by updates allowed to `i`. -/
def AnswersWithin (i : Instr) (s : State) (r : Result) : Prop := ∃ t, r = .next t ∧ Touches i s t

/-- R15: a fault changes the status of the state before the step, so only the completion is in question. -/
theorem AnswersWithin.finish {i : Instr} {s : State} {r : Except Cause State} (h : ∀ t, r = .ok t → Touches i s t) :
    AnswersWithin i s (s.finish r) := by
  cases r with
  | error c => exact ⟨_, rfl, .setStatus _ .refl⟩
  | ok t => exact ⟨t, rfl, h t rfl⟩

theorem AnswersWithin.load {i : Instr} {rd : Reg} (hrd : rd ∈ mayWrite i) (s : State) (rs : Reg) (n : Nat)
    (widen : Word → Word) : AnswersWithin i s (s.finish ((s.advance 2).loadInto rd rs n widen)) :=
  .finish fun _ hl => .loadInto hrd hl (.advance 2)

theorem AnswersWithin.memWrite {i : Instr} (hi : storesToMemory i = true) (s : State) (addr : Word) (n : Nat) (v : Word) :
    AnswersWithin i s (s.finish ((s.advance 2).memWrite addr n v)) :=
  .finish fun _ hw => .writeBytes hi hw (.advance 2)

theorem execDiv_answersWithin (rd rs : Reg) (s : State) : AnswersWithin (.div rd rs) s (execDiv rd rs s) := by
  unfold execDiv
  dsimp only
  split
  · exact ⟨_, rfl, .setStatus _ .refl⟩
  · exact ⟨_, rfl, .computePair .div rfl (by simp [mayWrite]) (by simp [mayWrite]) _ _ (.advance 2)⟩

theorem execBeq_answersWithin (rd rs : Reg) (immed : Int) (s : State) :
    AnswersWithin (.beq rd rs immed) s (execBeq rd rs immed s) := by
  unfold execBeq
  dsimp only
  split
  · exact ⟨_, rfl, .setPc _ (.advance 4)⟩
  · exact ⟨_, rfl, .advance 4⟩

theorem execPush_answersWithin (rs : Reg) (s : State) : AnswersWithin (.push rs) s (execPush rs s) := by
  refine .finish fun t h => ?_
  split at h
  · cases h
  · next u hu =>
    obtain rfl := Except.ok.inj h
    exact .setNamed (by simp [mayWrite]) _ (.writeBytes rfl hu (.advance 2))

theorem execPop_answersWithin (rd : Reg) (s : State) : AnswersWithin (.pop rd) s (execPop rd s) := by
  refine .finish fun t h => ?_
  split at h
  · cases h
  · obtain rfl := Except.ok.inj h
    exact .setNamed (by simp [mayWrite]) _ (.setNamed (by simp [mayWrite]) _ (.advance 2))

theorem servicePrintStr_touches {s t u : State} (h : Touches .syscall s t) (ho : t.out = s.out)
    (hu : servicePrintStr t = .ok u) : Touches .syscall s u := by
  unfold servicePrintStr at hu
  split at hu
  · cases hu
  · obtain rfl := Except.ok.inj hu
    exact .emit rfl ho _ h

theorem serviceReadStr_touches {answer : Nat → List Byte} {s t u : State} (h : Touches .syscall s t)
    (hu : serviceReadStr answer t = .ok u) : Touches .syscall s u := by
  unfold serviceReadStr at hu
  dsimp only at hu
  split at hu
  · exact Except.ok.inj hu ▸ h
  · split at hu
    · cases hu
    · next v hv =>
      obtain rfl := Except.ok.inj hu
      exact .drawn rfl (.writeBytes rfl hv h)

theorem serviceSbrk_touches {s t u : State} (h : Touches .syscall s t) (hu : serviceSbrk t = .ok u) :
    Touches .syscall s u := by
  unfold serviceSbrk at hu
  dsimp only at hu
  split at hu
  · cases hu
  · obtain rfl := Except.ok.inj hu
    exact .setBrk rfl _ (.setNamed (by simp [mayWrite]) _ h)

/-- R200: a service changes only what its rule names. -/
theorem service_touches {s t u : State} (h : Touches .syscall s t) (ho : t.out = s.out) (hu : service t = .ok u) :
    Touches .syscall s u := by
  have readInto (v : Word) : Touches .syscall s (t.setReg Reg.v0 v).drawn :=
    .drawn rfl (.setNamed (by simp [mayWrite]) _ h)
  unfold service at hu
  split at hu
  · exact Except.ok.inj hu ▸ .setStatus _ h
  · exact Except.ok.inj hu ▸ .emit rfl ho _ h
  · exact Except.ok.inj hu ▸ .emit rfl ho _ h
  · exact servicePrintStr_touches h ho hu
  · exact Except.ok.inj hu ▸ readInto _
  · exact Except.ok.inj hu ▸ readInto _
  · exact serviceReadStr_touches h hu
  · exact serviceSbrk_touches h hu
  · cases hu

/-- Every instruction answers with a next state, reached by updates allowed to it. -/
theorem exec_answersWithin (i : Instr) (s : State) : AnswersWithin i s (exec i s) := by
  cases i with
  | syscall => exact .finish fun _ hu => service_touches (.advance 1) (State.advance_out ..) hu
  | nop => exact ⟨_, rfl, .advance 1⟩
  | jr rd => exact ⟨_, rfl, .setPc _ (.advance 2)⟩
  | pushm rs => exact ⟨_, rfl, .setModifiers ⟨rs, rfl⟩ _ (.advance 2)⟩
  | mov rd _ | popf rd | popm rd => exact ⟨_, rfl, .setNamed (List.mem_singleton_self rd) _ (.advance 2)⟩
  | li rd _ | lui rd _ => exact ⟨_, rfl, .setNamed (List.mem_singleton_self rd) _ (.advance 4)⟩
  | beq rd rs immed => exact execBeq_answersWithin rd rs immed s
  | lw rd rs => exact .load (List.mem_singleton_self rd) s rs 4 id
  | lb rd rs => exact .load (List.mem_singleton_self rd) s rs 1 _
  | lh rd rs => exact .load (List.mem_singleton_self rd) s rs 2 _
  | sw rs rd => exact .memWrite rfl s _ 4 _
  | sb rs rd => exact .memWrite rfl s _ 1 _
  | sh rs rd => exact .memWrite rfl s _ 2 _
  | push rs => exact execPush_answersWithin rs s
  | pop rd => exact execPop_answersWithin rd s
  | mul rd rs =>
    exact ⟨_, rfl, .computePair .mul rfl (by simp [mayWrite]) (by simp [mayWrite]) _ _ (.advance 2)⟩
  | div rd rs => exact execDiv_answersWithin rd rs s
  | not rd _ => exact ⟨_, rfl, .compute .not rfl (List.mem_singleton_self rd) _ _ (.advance 2)⟩
  | and rd _ _ | or rd _ _ | xor rd _ _ | sll rd _ _ | srl rd _ _ | sra rd _ _ | sllv rd _ _ | srlv rd _ _
  | srav rd _ _ | add rd _ _ | sub rd _ _ =>
    exact ⟨_, rfl, .compute _ rfl (List.mem_singleton_self rd) _ _ (.advance 3)⟩

theorem touches_of_exec {i : Instr} {s t : State} (h : exec i s = .next t) : Touches i s t := by
  obtain ⟨u, hu, htouch⟩ := exec_answersWithin i s
  obtain rfl := Host.Outcome.next.inj (h.symm.trans hu)
  exact htouch

/-! ## What the updates leave unchanged -/

theorem State.getReg_setReg_of_ne {q r : Reg} (h : q ≠ r) (s : State) (v : Word) :
    (s.setReg r v).getReg q = s.getReg q := by
  rw [State.getReg_setReg, if_neg h]
  split
  · next hq => rw [hq, State.getReg_zero]
  · rfl

namespace Touches

variable {i : Instr} {s t : State}

theorem params (h : Touches i s t) : t.params = s.params := by
  induction h <;> simp [*]

theorem getReg {q : Reg} (h : Touches i s t) (hpc : q ≠ Reg.pc) (hq : q ∉ mayWrite i) : t.getReg q = s.getReg q := by
  induction h with
  | setReg hr v _ ih =>
    have hne : q ≠ _ := fun e => (List.mem_cons.1 (e ▸ hr)).elim hpc hq
    rw [State.getReg_setReg_of_ne hne, ih]
  | _ => simp [*]

theorem sr_unused_mode (h : Touches i s t) : t.sr.unused = s.sr.unused ∧ t.sr.mode = s.sr.mode := by
  induction h <;> simp [*]

theorem sr_modifiers (h : Touches i s t) (hi : ∀ rs, i ≠ .pushm rs) : t.sr.modifiers = s.sr.modifiers := by
  induction h with
  | setModifiers hp m _ _ =>
    obtain ⟨rs, rfl⟩ := hp
    exact absurd rfl (hi rs)
  | _ => simp [*]

theorem sr_flags (h : Touches i s t) (hi : computes i = false) : t.sr.flags = s.sr.flags := by
  induction h with
  | setFlags hc f _ _ => simp [hc] at hi
  | _ => simp [*]

theorem mem (h : Touches i s t) (hi : storesToMemory i = false) : t.mem = s.mem := by
  induction h with
  | store hs _ _ _ => simp [hs] at hi
  | _ => simp [*]

theorem out (h : Touches i s t) : t.out = s.out ∨ i = .syscall ∧ ∃ e, t.out = s.out ++ [e] := by
  induction h with
  | emit hi ho e _ _ => exact .inr ⟨hi, e, by simp [ho]⟩
  | refl => exact .inl rfl
  | _ => simpa

theorem brk_oraclePos (h : Touches i s t) (hi : i ≠ .syscall) : t.brk = s.brk ∧ t.oraclePos = s.oraclePos := by
  induction h with
  | setBrk hs b _ _ => exact absurd hs hi
  | drawn hs _ _ => exact absurd hs hi
  | _ => simp [*]

end Touches

/-! ## What the updates keep of the invariant -/

theorem State.Inv.setReg {s : State} (h : s.Inv) (r : Reg) (v : Word) : (s.setReg r v).Inv := by
  simpa [State.Inv, State.memOk, State.zeroOk] using h

/-- R16, R30: the four flags leave the reserved bits 0. -/
theorem FlagBits.section_reserved (f : FlagBits) : f.section.extractLsb' 4 4 = 0 := by
  obtain ⟨z, c, s, o⟩ := f
  revert z c s o
  decide

theorem State.Inv.setFlags {s : State} (h : s.Inv) (f : FlagBits) : (s.setFlags f).Inv := by
  obtain ⟨hmem, hsr, hzero⟩ := h
  simp only [SpecialRegister.reservedClear, Bool.and_eq_true, decide_eq_true_eq] at hsr
  obtain ⟨hconst, -⟩ := hsr
  refine ⟨hmem, ?_, hzero⟩
  simp only [SpecialRegister.reservedClear, Bool.and_eq_true, decide_eq_true_eq]
  exact ⟨hconst, f.section_reserved⟩

theorem Touches.inv {i : Instr} {s t : State} (h : Touches i s t) (hs : s.Inv) : t.Inv := by
  induction h with
  | refl => exact hs
  | setFlags _ f _ ih => exact ih.setFlags f
  | store _ hm _ ih =>
    obtain ⟨hmem, hsr, hzero⟩ := ih
    exact ⟨State.memOk_storeBytes hmem hm, hsr, hzero⟩
  | setReg _ v _ ih => exact ih.setReg _ v
  | setModifiers _ _ _ ih | setStatus _ _ ih | setBrk _ _ _ ih | emit _ _ _ _ ih | drawn _ _ ih => exact ih


end Sys2Proof.Machine
end

section
/-! SUPPORT. The modifiers section and the other updates commute, and what reads neither U nor the section gives the same
answer whatever it holds (spec/10_state.md R34). `withModifiers` of the statement is the model's `setModifiers`. -/

namespace Sys2Proof.Machine

open Sys2Proof.Claims

section
variable (s : State) (m : BitVec 4)

/-! ## The other updates -/

@[simp] theorem State.setModifiers_setReg (r : Reg) (v : Word) :
    (s.setModifiers m).setReg r v = (s.setReg r v).setModifiers m := by
  unfold State.setReg; split <;> rfl
@[simp] theorem State.setModifiers_advance (n : Nat) : (s.setModifiers m).advance n = (s.advance n).setModifiers m :=
  State.setModifiers_setReg ..
@[simp] theorem State.setModifiers_setFlags (f : FlagBits) :
    (s.setModifiers m).setFlags f = (s.setFlags f).setModifiers m := rfl
@[simp] theorem State.setModifiers_setMem (mem : Memory) :
    (s.setModifiers m).setMem mem = (s.setMem mem).setModifiers m := rfl
@[simp] theorem State.setModifiers_setBrk (b : Word) : (s.setModifiers m).setBrk b = (s.setBrk b).setModifiers m := rfl
@[simp] theorem State.setModifiers_setStatus (st : Status) :
    (s.setModifiers m).setStatus st = (s.setStatus st).setModifiers m := rfl
@[simp] theorem State.setModifiers_emit (e : Event) : (s.setModifiers m).emit e = (s.emit e).setModifiers m := rfl
@[simp] theorem State.setModifiers_drawn : (s.setModifiers m).drawn = s.drawn.setModifiers m := rfl

/-! ## Memory -/

@[simp] theorem State.setModifiers_memRead (addr : Word) (n : Nat) :
    (s.setModifiers m).memRead addr n = s.memRead addr n := rfl

theorem State.setModifiers_writeBytes (addr : Word) (bs : List Byte) :
    (s.setModifiers m).writeBytes addr bs = (s.writeBytes addr bs).map (·.setModifiers m) := by
  unfold State.writeBytes
  rw [State.firstUnmapped_congr (State.setModifiers_params ..)]
  cases s.firstUnmapped addr bs.length <;> rfl

theorem State.setModifiers_memWrite (addr : Word) (n : Nat) (v : Word) :
    (s.setModifiers m).memWrite addr n v = (s.memWrite addr n v).map (·.setModifiers m) :=
  State.setModifiers_writeBytes ..

theorem State.setModifiers_loadInto (rd rs : Reg) (n : Nat) (widen : Word → Word) :
    (s.setModifiers m).loadInto rd rs n widen = (s.loadInto rd rs n widen).map (·.setModifiers m) := by
  simp only [State.loadInto, State.setModifiers_memRead, State.setModifiers_getReg]
  cases s.memRead (s.getReg rs) n with
  | error c => rfl
  | ok v => exact congrArg Except.ok (State.setModifiers_setReg ..)

@[simp] theorem State.setModifiers_readString (fuel : Nat) (p : Word) :
    (s.setModifiers m).readString fuel p = s.readString fuel p := by
  induction fuel generalizing p with
  | zero => rfl
  | succ fuel ih => simp only [State.readString, State.setModifiers_memRead, ih]

/-! ## Computing -/

/-- R34: of the computing instructions, only `mul` and `div` ask for U. -/
theorem resultOf_ignores_u {op : Compute} (hmul : op ≠ .mul) (hdiv : op ≠ .div) (u u' : Bool) (a b : Word) :
    resultOf op u a b = resultOf op u' a b := by
  cases op with
  | mul => exact absurd rfl hmul
  | div => exact absurd rfl hdiv
  | _ => rfl

theorem flagsOf_ignores_u {op : Compute} (hmul : op ≠ .mul) (hdiv : op ≠ .div) (u u' : Bool) (a b : Word) :
    flagsOf op u a b = flagsOf op u' a b := by
  cases op with
  | mul => exact absurd rfl hmul
  | div => exact absurd rfl hdiv
  | _ => rfl

theorem State.setModifiers_compute {op : Compute} (hmul : op ≠ .mul) (hdiv : op ≠ .div) (rd : Reg) (a b : Word) :
    (s.setModifiers m).compute op rd a b = (s.compute op rd a b).setModifiers m := by
  simp only [State.compute, State.setModifiers_setReg, State.setModifiers_setFlags,
    resultOf_ignores_u hmul hdiv (s.setModifiers m).u s.u, flagsOf_ignores_u hmul hdiv (s.setModifiers m).u s.u]

theorem computeRegisters_setModifiers {op : Compute} (hmul : op ≠ .mul) (hdiv : op ≠ .div) (rd rs rt : Reg) :
    computeRegisters op rd rs rt (s.setModifiers m) = mapNext (·.setModifiers m) (computeRegisters op rd rs rt s) := by
  simp [computeRegisters, State.setModifiers_compute _ _ hmul hdiv, mapNext]

theorem computeShamt_setModifiers {op : Compute} (hmul : op ≠ .mul) (hdiv : op ≠ .div) (rd rs : Reg) (shamt : Nat) :
    computeShamt op rd rs shamt (s.setModifiers m) = mapNext (·.setModifiers m) (computeShamt op rd rs shamt s) := by
  simp [computeShamt, State.setModifiers_compute _ _ hmul hdiv, mapNext]

/-! ## Instructions that can fault -/

/-- A fault or a completion, each with the section replaced. -/
theorem State.setModifiers_finish {r r' : Except Cause State} (h : r' = r.map (·.setModifiers m)) :
    (s.setModifiers m).finish r' = mapNext (·.setModifiers m) (s.finish r) := by
  subst h
  cases r <;> rfl

theorem execPush_setModifiers (rs : Reg) :
    execPush rs (s.setModifiers m) = mapNext (·.setModifiers m) (execPush rs s) := by
  refine State.setModifiers_finish s m ?_
  simp only [State.setModifiers_advance, pushAddress, State.setModifiers_getReg, State.setModifiers_memWrite]
  cases (s.advance 2).memWrite ((s.advance 2).getReg Reg.sp) 4 ((s.advance 2).getReg rs) with
  | error c => rfl
  | ok t => exact congrArg Except.ok (State.setModifiers_setReg ..)

theorem execPop_setModifiers (rd : Reg) :
    execPop rd (s.setModifiers m) = mapNext (·.setModifiers m) (execPop rd s) := by
  refine State.setModifiers_finish s m ?_
  simp only [State.setModifiers_advance, popAddress, State.setModifiers_getReg, State.setModifiers_memRead,
    State.setModifiers_setReg]
  cases (s.advance 2).memRead ((s.advance 2).getReg Reg.sp + 4) 4 <;> rfl

theorem execBeq_setModifiers (rd rs : Reg) (immed : Int) :
    execBeq rd rs immed (s.setModifiers m) = mapNext (·.setModifiers m) (execBeq rd rs immed s) := by
  simp only [execBeq, State.setModifiers_advance, State.setModifiers_getReg, State.setModifiers_pc,
    State.setModifiers_setReg]
  split <;> rfl

/-! ## System calls -/

theorem servicePrintStr_setModifiers :
    servicePrintStr (s.setModifiers m) = (servicePrintStr s).map (·.setModifiers m) := by
  simp only [servicePrintStr, State.setModifiers_readString, State.setModifiers_getReg, State.setModifiers_emit]
  cases s.readString (2 ^ 32) (s.getReg Reg.g0) <;> rfl

theorem serviceReadStr_setModifiers (answer : Nat → List Byte) :
    serviceReadStr answer (s.setModifiers m) = (serviceReadStr answer s).map (·.setModifiers m) := by
  simp only [serviceReadStr, State.setModifiers_getReg, State.setModifiers_writeBytes]
  split
  · rfl
  · cases s.writeBytes (s.getReg Reg.g0) _ <;> rfl

theorem serviceSbrk_setModifiers : serviceSbrk (s.setModifiers m) = (serviceSbrk s).map (·.setModifiers m) := by
  simp only [serviceSbrk, State.setModifiers_getReg, State.setModifiers_brk, State.setModifiers_params,
    State.setModifiers_setReg, State.setModifiers_setBrk]
  split <;> rfl

/-- R34: of the services, only print int shows U. -/
theorem service_setModifiers (hv : s.getReg Reg.v0 ≠ 1) :
    service (s.setModifiers m) = (service s).map (·.setModifiers m) := by
  unfold service
  rw [State.setModifiers_getReg]
  split
  · rfl
  · next h => exact absurd (BitVec.eq_of_toNat_eq h) hv
  · rfl
  · exact servicePrintStr_setModifiers s m
  · exact congrArg (fun t : State => Except.ok t.drawn) (State.setModifiers_setReg ..)
  · exact congrArg (fun t : State => Except.ok t.drawn) (State.setModifiers_setReg ..)
  · exact serviceReadStr_setModifiers s m _
  · exact serviceSbrk_setModifiers s m
  · rfl

theorem execSyscall_setModifiers (hv : s.getReg Reg.v0 ≠ 1) :
    execSyscall (s.setModifiers m) = mapNext (·.setModifiers m) (execSyscall s) := by
  refine State.setModifiers_finish s m ?_
  rw [State.setModifiers_advance, service_setModifiers]
  rwa [State.getReg_advance_of_ne_pc (by decide)]

/-! ## Every instruction that does not use the section -/

/-- R34: an instruction that does not use the modifiers section does the same whatever the section holds. -/
theorem exec_setModifiers {i : Instr} (hi : usesModifiers i = false) :
    exec i (s.setModifiers m) = mapNext (·.setModifiers m) (exec i s) := by
  cases i with
  | syscall | mul | div | lb | lh | popm | pushm => cases hi
  | nop => exact congrArg Host.Outcome.next (State.setModifiers_advance ..)
  | mov rd rs => simp [exec, execMov, mapNext]
  | jr rd => simp [exec, execJr, mapNext]
  | popf rd => simp [exec, execPopf, mapNext]
  | li rd immed => simp [exec, execLi, mapNext]
  | lui rd immed => simp [exec, execLui, mapNext]
  | beq rd rs immed => exact execBeq_setModifiers s m rd rs immed
  | lw rd rs =>
    exact State.setModifiers_finish s m (by rw [State.setModifiers_advance, State.setModifiers_loadInto])
  | sw rs rd | sb rs rd | sh rs rd =>
    exact State.setModifiers_finish s m (by
      simp only [State.setModifiers_advance, State.setModifiers_getReg, State.setModifiers_memWrite])
  | push rs => exact execPush_setModifiers s m rs
  | pop rd => exact execPop_setModifiers s m rd
  | not rd rs => simp [exec, execNot, State.setModifiers_compute, mapNext]
  | sll rd rs sh | srl rd rs sh | sra rd rs sh =>
    exact computeShamt_setModifiers s m (by decide) (by decide) rd rs sh
  | and rd rs rt | or rd rs rt | xor rd rs rt | sllv rd rs rt | srlv rd rs rt | srav rd rs rt | add rd rs rt
  | sub rd rs rt => exact computeRegisters_setModifiers s m (by decide) (by decide) rd rs rt

end


end Sys2Proof.Machine
end

section
/-! SUPPORT. The machine as loaded (spec/10_state.md R40, spec/70_reset_and_hazards.md R251): the registers, and the image
cell by cell. -/

namespace Sys2Proof.Machine

/-! ## Registers -/

/-- R40. -/
theorem State.load_getReg (c : Setup) (q : Reg) :
    (State.load c).getReg q = if q = 4 then c.entry else if q = 2 then c.spInit else 0 := by
  by_cases hq : q = Reg.zero
  · subst hq; rfl
  rw [State.getReg_of_ne _ hq]
  simp only [State.load, resetRegisters, Fin.getElem_fin, Vector.getElem_set, Vector.getElem_replicate, Fin.val_inj,
    eq_comm (b := q)]

theorem State.load_zeroPlace (c : Setup) : (State.load c).zeroPlace = 0 := by
  simp [State.load, State.zeroPlace, resetRegisters]

theorem State.load_sr (c : Setup) : (State.load c).sr = { unused := 0, mode := 0, modifiers := 0, flags := 0 } := rfl

/-! ## The image -/

/-- One entry of an image placed in memory, or dropped where no byte exists (log 7). -/
def Memory.placeCell (p : Params) (m : Memory) (c : Host.Cell) : Memory :=
  if c.1 < 2 ^ 32 && isMapped p (BitVec.ofNat 32 c.1) then m.store c.1 c.2 else m

theorem Memory.ofImage_eq_foldl (p : Params) (image : List Host.Cell) :
    Memory.ofImage p image = image.foldl (Memory.placeCell p) [] := rfl

theorem Memory.placeCell_of_mapped {p : Params} {a : Word} (h : isMapped p a = true) (m : Memory) (b : Byte) :
    Memory.placeCell p m (a.toNat, b) = m.store a.toNat b := by
  simp [Memory.placeCell, a.isLt, h]

theorem Memory.placeCell_wf {p : Params} {m : Memory} (h : m.wf = true) (c : Host.Cell) :
    (Memory.placeCell p m c).wf = true := by
  unfold Memory.placeCell
  split
  · next hc => exact Memory.store_wf h (by simpa using (Bool.and_eq_true_iff.1 hc).1) c.2
  · exact h

theorem Memory.placeCell_all_mapped {p : Params} {m : Memory} (c : Host.Cell)
    (h : m.all (fun d => isMapped p (BitVec.ofNat 32 d.1)) = true) :
    (Memory.placeCell p m c).all (fun d => isMapped p (BitVec.ofNat 32 d.1)) = true := by
  unfold Memory.placeCell
  split
  · next hc => exact Memory.all_store h (Bool.and_eq_true_iff.1 hc).2
  · exact h

theorem Memory.ofImage_all_mapped (p : Params) (image : List Host.Cell) :
    (Memory.ofImage p image).all (fun d => isMapped p (BitVec.ofNat 32 d.1)) = true := by
  rw [Memory.ofImage_eq_foldl]
  exact List.foldlRecOn
    (motive := fun m : Memory => m.all (fun d => isMapped p (BitVec.ofNat 32 d.1)) = true)
    image _ rfl fun _ h c _ => Memory.placeCell_all_mapped c h

/-- Entries at other addresses leave a byte as it was. -/
theorem Memory.byteAt_foldl_placeCell {p : Params} {image : List Host.Cell} {a : Nat} (h : ∀ b, (a, b) ∉ image)
    (m : Memory) : (image.foldl (Memory.placeCell p) m).byteAt a = m.byteAt a := by
  induction image generalizing m with
  | nil => rfl
  | cons c image ih =>
    have hc : c.1 ≠ a := fun e => h c.2 (by simp [← e])
    rw [List.foldl_cons, ih fun b hb => h b (List.mem_cons_of_mem _ hb), Memory.placeCell]
    split
    · exact Memory.byteAt_store_ne m hc c.2
    · rfl

/-- R40: a byte that the image does not list. -/
theorem Memory.byteAt_ofImage_of_unlisted {image : List Host.Cell} {a : Nat} (h : ∀ b, (a, b) ∉ image) (p : Params) :
    (Memory.ofImage p image).byteAt a = Memory.unlisted :=
  Memory.byteAt_foldl_placeCell h []

/-- R251: a mapped byte that the image lists once: the entries before it keep memory canonical, those after it are at
other addresses. -/
theorem Memory.byteAt_ofImage_of_listed {p : Params} {image : List Host.Cell} (hnodup : (image.map Prod.fst).Nodup)
    {a : Word} {b : Byte} (hmem : (a.toNat, b) ∈ image) (hmapped : isMapped p a = true) :
    (Memory.ofImage p image).byteAt a.toNat = b := by
  obtain ⟨before, after, rfl⟩ := List.append_of_mem hmem
  have hafter : ∀ b', (a.toNat, b') ∉ after := by
    intro b' hb'
    simp only [List.map_append, List.map_cons, List.nodup_append, List.nodup_cons] at hnodup
    exact hnodup.2.1.1 (List.mem_map_of_mem hb')
  rw [Memory.ofImage_eq_foldl, List.foldl_append, List.foldl_cons, Memory.byteAt_foldl_placeCell hafter,
    Memory.placeCell_of_mapped hmapped]
  exact Memory.byteAt_store_self (Memory.ofImage_wf p before) _ b

end Sys2Proof.Machine
end

section
/-! SUPPORT. The one first byte of `syscall` (spec/30_encoding.md R95, R120). -/

namespace Sys2Proof

/-- R95: an opcode selects the row its table lists for it. -/
theorem selectRow_eq_ok {n : Nat} {α : Type} {length : Nat} {mk : α → Format} {table : List (BitVec n × α)}
    {opcode : BitVec n} {f : Format} (h : selectRow length mk table opcode = .ok f) :
    ∃ row, (opcode, row) ∈ table ∧ f = mk row := by
  unfold selectRow at h
  split at h
  · next row hrow =>
    obtain ⟨l, r, rfl, -⟩ := List.lookup_eq_some_iff.1 hrow
    exact ⟨row, by simp, (Except.ok.inj h).symm⟩
  · cases h

/-- R81, R96: what a legal first byte selects: a row of the table its marker names. -/
theorem formatOf_eq_ok {b0 : Byte} {f : Format} (h : formatOf b0 = .ok f) :
    (markerLength b0 = some 1 ∧ ∃ i, (b0.extractLsb' 0 7, i) ∈ oneByteTable ∧ f = .one i) ∨
    (markerLength b0 = some 2 ∧ ∃ mk, (b0.extractLsb' 0 5, mk) ∈ twoByteTable ∧ f = .two mk) ∨
    (markerLength b0 = some 3 ∧ ∃ mk, (b0.extractLsb' 0 4, mk) ∈ threeByteTable ∧ f = .three mk) ∨
    (markerLength b0 = some 4 ∧ ∃ mk, (b0.extractLsb' 0 3, mk) ∈ fourByteTable ∧ f = .four mk) := by
  unfold formatOf at h
  split at h
  · next hm => exact .inl ⟨hm, selectRow_eq_ok h⟩
  · next hm => exact .inr (.inl ⟨hm, selectRow_eq_ok h⟩)
  · next hm => exact .inr (.inr (.inl ⟨hm, selectRow_eq_ok h⟩))
  · next hm => exact .inr (.inr (.inr ⟨hm, selectRow_eq_ok h⟩))
  · cases h
  · cases h

theorem length_of_formatOf_two {b0 : Byte} {mk} (h : formatOf b0 = .ok (.two mk)) (rd rs : Reg) :
    (mk rd rs).length = 2 := by
  have all : ∀ row ∈ twoByteTable, (row.2 rd rs).length = 2 := by simp [twoByteTable, Instr.length]
  obtain ⟨-, _, -, ⟨⟩⟩ | ⟨-, _, hrow, ⟨⟩⟩ | ⟨-, _, hrow, ⟨⟩⟩ | ⟨-, _, hrow, ⟨⟩⟩ := formatOf_eq_ok h
  exact all _ hrow

theorem length_of_formatOf_three {b0 : Byte} {mk} (h : formatOf b0 = .ok (.three mk)) (rd rs rt : Reg) (shamt : Nat) :
    (mk rd rs rt shamt).length = 3 := by
  have all : ∀ row ∈ threeByteTable, (row.2 rd rs rt shamt).length = 3 := by simp [threeByteTable, Instr.length]
  obtain ⟨-, _, -, ⟨⟩⟩ | ⟨-, _, hrow, ⟨⟩⟩ | ⟨-, _, hrow, ⟨⟩⟩ | ⟨-, _, hrow, ⟨⟩⟩ := formatOf_eq_ok h
  exact all _ hrow

theorem length_of_formatOf_four {b0 : Byte} {mk} (h : formatOf b0 = .ok (.four mk)) (rd rs : Reg) (imm : BitVec 16) :
    (mk rd rs imm).length = 4 := by
  have all : ∀ row ∈ fourByteTable, (row.2 rd rs imm).length = 4 := by simp [fourByteTable, Instr.length]
  obtain ⟨-, _, -, ⟨⟩⟩ | ⟨-, _, hrow, ⟨⟩⟩ | ⟨-, _, hrow, ⟨⟩⟩ | ⟨-, _, hrow, ⟨⟩⟩ := formatOf_eq_ok h
  exact all _ hrow

/-- R90: what the decoder gives, by the format that the first byte selects. -/
theorem decode_eq_ok {b0 : Byte} {bs rest : List Byte} {i : Instr} (h : decode (b0 :: bs) = .ok (i, rest)) :
    (formatOf b0 = .ok (.one i) ∧ bs = rest) ∨
    (∃ mk b1, formatOf b0 = .ok (.two mk) ∧ bs = b1 :: rest ∧ i = mk (highReg b1) (lowReg b1)) ∨
    (∃ mk b1 b2, formatOf b0 = .ok (.three mk) ∧ bs = b1 :: b2 :: rest ∧
      i = mk (highReg b1) (lowReg b1) (highReg b2) (shamtOf b2)) ∨
    (∃ mk b1 b2 b3, formatOf b0 = .ok (.four mk) ∧ bs = b1 :: b2 :: b3 :: rest ∧
      i = mk (highReg b1) (lowReg b1) (immOf b2 b3)) := by
  rw [decode] at h
  split at h
  · cases h
  · next hf =>
    obtain ⟨rfl, rfl⟩ := Prod.mk.inj (Except.ok.inj h)
    exact .inl ⟨hf, rfl⟩
  · next mk hf =>
    split at h
    · obtain ⟨rfl, rfl⟩ := Prod.mk.inj (Except.ok.inj h)
      exact .inr (.inl ⟨mk, _, hf, rfl, rfl⟩)
    · cases h
  · next mk hf =>
    split at h
    · obtain ⟨rfl, rfl⟩ := Prod.mk.inj (Except.ok.inj h)
      exact .inr (.inr (.inl ⟨mk, _, _, hf, rfl, rfl⟩))
    · cases h
  · next mk hf =>
    split at h
    · obtain ⟨rfl, rfl⟩ := Prod.mk.inj (Except.ok.inj h)
      exact .inr (.inr (.inr ⟨mk, _, _, _, hf, rfl, rfl⟩))
    · cases h

/-- The instructions of the longer formats are longer than `syscall`. -/
theorem formatOf_of_decode_syscall {b0 : Byte} {bs rest : List Byte} (h : decode (b0 :: bs) = .ok (.syscall, rest)) :
    formatOf b0 = .ok (.one .syscall) := by
  rcases decode_eq_ok h with ⟨hf, -⟩ | ⟨mk, b1, hf, -, he⟩ | ⟨mk, b1, b2, hf, -, he⟩ | ⟨mk, b1, b2, b3, hf, -, he⟩
  · exact hf
  · exact absurd (he ▸ length_of_formatOf_two hf _ _ : Instr.syscall.length = 2) (by decide)
  · exact absurd (he ▸ length_of_formatOf_three hf _ _ _ _ : Instr.syscall.length = 3) (by decide)
  · exact absurd (he ▸ length_of_formatOf_four hf _ _ _ : Instr.syscall.length = 4) (by decide)

/-- R95, R120: 0x00 alone selects `syscall`. -/
theorem eq_zero_of_formatOf_syscall {b0 : Byte} (h : formatOf b0 = .ok (.one .syscall)) : b0 = 0x00 := by
  obtain ⟨hmarker, _, hrow, ⟨⟩⟩ | ⟨-, _, -, ⟨⟩⟩ | ⟨-, _, -, ⟨⟩⟩ | ⟨-, _, -, ⟨⟩⟩ := formatOf_eq_ok h
  have hopcode : b0.extractLsb' 0 7 = 0 := by simpa [oneByteTable] using hrow
  clear h hrow
  revert b0
  decide

end Sys2Proof

namespace Sys2Proof.Machine

/-- R255: what was fetched was decoded from the byte at the program counter and the bytes after it. -/
theorem State.fetchInstr_eq_ok {s : State} {i : Instr} (h : s.fetchInstr = .ok i) :
    ∃ operands rest, decode (s.byteAt s.pc :: operands) = .ok (i, rest) := by
  unfold State.fetchInstr at h
  split at h
  · cases h
  · next first hfirst =>
    obtain ⟨-, rfl⟩ := State.readBytes_eq_ok.1 hfirst
    dsimp only at h
    split at h
    · cases h
    · split at h
      · cases h
      · next operands _ =>
        split at h
        · cases h
        · next j rest hd =>
          obtain rfl := Except.ok.inj h
          refine ⟨operands, rest, ?_⟩
          simpa [addresses] using hd

end Sys2Proof.Machine
end

section
/-! The statements of spec/10_state.md: the invariant, the machine as loaded, the special register, and what each
instruction may change. -/

namespace Sys2Proof.Machine

open Sys2Proof.Claims

/-- Settles O11: a step is a fault of the fetch, which changes the status alone, or an instruction, which makes only the
updates of `Touches`. -/
theorem stepKeepsInvariant : Obligations.StepKeepsInvariant := by
  intro s t hs hstep
  obtain ⟨-, ⟨c, -, rfl⟩ | ⟨i, -, hexec⟩⟩ := step_eq_next hstep
  · exact hs
  · exact (touches_of_exec hexec).inv hs

/-- Settles O13. -/
theorem everyLoadHasInvariant : Obligations.EveryLoadHasInvariant := by
  intro c
  have hmem : (State.load c).memOk = true :=
    Bool.and_eq_true_iff.2 ⟨Memory.ofImage_wf .., Memory.ofImage_all_mapped ..⟩
  have hsr : (State.load c).sr.reservedClear = true := by rw [State.load_sr]; decide
  exact ⟨hmem, hsr, decide_eq_true (State.load_zeroPlace c)⟩

/-- Settles O12: reset is the load of the default choices. -/
theorem resetHasInvariant : Obligations.ResetHasInvariant :=
  everyLoadHasInvariant defaultSetup

/-- Settles O15. -/
theorem loadGivesTheResetValues : Obligations.LoadGivesTheResetValues := fun c =>
  ⟨State.load_getReg c, State.load_sr c, fun _ h => Memory.byteAt_ofImage_of_unlisted h c.params,
    fun hnodup _ _ hmem hmapped => Memory.byteAt_ofImage_of_listed hnodup hmem hmapped, rfl, rfl, rfl⟩

/-- Settles O10: a step that halts fetched `syscall`, which the byte 0x00 alone selects. -/
theorem onlyExitHalts : Obligations.OnlyExitHalts := by
  intro s t code hstep hst
  rcases step_status_cases hstep with hrun | ⟨c, rfl⟩ | ⟨hfetch, hv, hhalt⟩
  · simp [hst] at hrun
  · simp at hst
  · obtain ⟨operands, rest, hdecode⟩ := State.fetchInstr_eq_ok hfetch
    have hcode : code = s.getReg Reg.g0 := Status.halted.inj (hst.symm.trans hhalt)
    exact ⟨eq_zero_of_formatOf_syscall (formatOf_of_decode_syscall hdecode), hv, hcode⟩

/-- Settles O17: each section is reached by passing over the sections to the right of it. -/
theorem specialRegisterLayout : Obligations.SpecialRegisterLayout := by
  intro r
  refine ⟨?unused, ?mode, ?modifiers, ?flags⟩
  case flags => exact BitVec.extractLsb'_append_eq_right
  all_goals refine (BitVec.extractLsb'_append_eq_of_le (by decide)).trans ?_
  case modifiers => exact BitVec.extractLsb'_append_eq_right
  all_goals refine (BitVec.extractLsb'_append_eq_of_le (by decide)).trans ?_
  case mode => exact BitVec.extractLsb'_append_eq_right
  case unused => exact BitVec.extractLsb'_append_eq_left

/-- Settles O18. -/
theorem onlyComputingInstructionsWriteFlags : Obligations.OnlyComputingInstructionsWriteFlags :=
  fun _ _ _ hi h => (touches_of_exec h).sr_flags hi

/-- Settles O19. -/
theorem onlyPushmWritesModifiers : Obligations.OnlyPushmWritesModifiers := by
  intro i s t h
  obtain ⟨hunused, hmode⟩ := (touches_of_exec h).sr_unused_mode
  exact ⟨hunused, hmode, (touches_of_exec h).sr_modifiers⟩

/-- Settles O20: the instructions that do not use the section, and `syscall` with a selector other than print int. -/
theorem otherInstructionsIgnoreU : Obligations.OtherInstructionsIgnoreU := by
  rintro i s m (hi | ⟨rfl, hv⟩)
  · exact exec_setModifiers s m hi
  · exact execSyscall_setModifiers s m hv

/-- Settles O21. -/
theorem onlyNamedRegistersAreWritten : Obligations.OnlyNamedRegistersAreWritten :=
  fun _ _ _ _ h hpc hq => (touches_of_exec h).getReg hpc hq

/-- Settles O22. -/
theorem onlyStoresChangeMemory : Obligations.OnlyStoresChangeMemory :=
  fun _ _ _ hi h a => congrArg (·.byteAt a.toNat) ((touches_of_exec h).mem hi)

/-- Settles O23: the updates give the output, the break and the position; the status is kept or the whole answer is a
fault. -/
theorem onlySyscallReachesTheHost : Obligations.OnlySyscallReachesTheHost := by
  intro i s t h
  refine ⟨(touches_of_exec h).out, fun hi => ?_⟩
  obtain ⟨hbrk, hpos⟩ := (touches_of_exec h).brk_oraclePos hi
  refine ⟨hbrk, hpos, ?_⟩
  rcases exec_keepsStatusOrFaults hi s with ⟨u, hu, hst⟩ | ⟨c, hc⟩
  · obtain rfl := Host.Outcome.next.inj (h.symm.trans hu)
    exact .inl hst
  · exact .inr ⟨c, Host.Outcome.next.inj (h.symm.trans hc)⟩

end Sys2Proof.Machine
end

section
/-! SUPPORT. Loads and stores of mapped bytes: what they answer, and that stored bytes are the bytes read there
(spec/20_memory.md R56, R57; spec/41_two_byte.md R132 to R137). -/

namespace Sys2Proof.Machine

open Sys2Proof.Claims

/-- R24: `seen` is what the model's advanced state gives. -/
theorem State.getReg_advance_eq_seen (s : State) (n : Nat) (q : Reg) : (s.advance n).getReg q = seen s n q :=
  State.getReg_advance s n q

/-! ## Bytes read after bytes written -/

theorem Memory.map_byteAt_storeBytes {m : Memory} (h : m.wf = true) (addr : Word) {bs : List Byte}
    (hlen : bs.length ≤ 2 ^ 32) :
    (addresses addr bs.length).map (fun a => (m.storeBytes addr bs).byteAt a.toNat) = bs := by
  refine List.ext_getElem (by simp) fun k _ hk => ?_
  simpa [addresses] using Memory.byteAt_storeBytes h addr bs hlen k hk

/-- R55 to R57: a word is assembled from its own bytes, in either order. -/
theorem Memory.assemble_storeBytes_split_four {m : Memory} (h : m.wf = true) (order : ByteOrder) (addr v : Word) :
    assemble order ((addresses addr 4).map fun a => (m.storeBytes addr (split order 4 v)).byteAt a.toNat) = v := by
  have hbytes := Memory.map_byteAt_storeBytes h addr (bs := split order 4 v) (by simp)
  rw [length_split] at hbytes
  rw [hbytes, assemble_split_four]

/-! ## Accesses to mapped bytes complete -/

theorem allMapped_of_params_eq {s t : State} (hp : t.params = s.params) {addr : Word} {n : Nat}
    (h : AllMapped s addr n) : AllMapped t addr n := by
  simpa [AllMapped, State.mapped, hp] using h

/-- R57: a store of mapped bytes changes them, and the program counter advances. -/
theorem State.finish_memWrite_of_allMapped {s : State} {addr : Word} {n : Nat} (h : AllMapped s addr n) (v : Word) :
    s.finish ((s.advance 2).memWrite addr n v) =
      .next ((s.advance 2).setMem (s.mem.storeBytes addr (split s.params.byteOrder n v))) :=
  State.finish_eq_next.2 (.inl (State.memWrite_eq_ok.2
    ⟨allMapped_of_params_eq (State.advance_params ..) h, by simp⟩))

/-- R56: a load of mapped bytes writes its register, and the program counter advances. -/
theorem State.finish_loadInto_of_allMapped {s : State} {rs : Reg} {n : Nat} (h : AllMapped s (seen s 2 rs) n) (rd : Reg)
    (widen : Word → Word) :
    s.finish ((s.advance 2).loadInto rd rs n widen) =
      .next ((s.advance 2).setReg rd
        (widen (assemble s.params.byteOrder ((addresses (seen s 2 rs) n).map s.byteAt)))) := by
  rw [← State.getReg_advance_eq_seen] at h ⊢
  refine State.finish_eq_next.2 (.inl (State.loadInto_eq_ok.2 ⟨_, State.memRead_eq_ok.2
    ⟨allMapped_of_params_eq (State.advance_params ..) h, rfl⟩, ?_⟩))
  simp [funext (State.advance_byteAt s 2)]

/-- R133. -/
theorem exec_sw_of_allMapped {s : State} {rd : Reg} (h : AllMapped s (seen s 2 rd) 4) (rs : Reg) :
    exec (.sw rs rd) s = .next ((s.advance 2).setMem
      (s.mem.storeBytes (seen s 2 rd) (split s.params.byteOrder 4 (seen s 2 rs)))) := by
  simp only [← State.getReg_advance_eq_seen] at h ⊢
  exact State.finish_memWrite_of_allMapped h _

/-- R132. -/
theorem exec_lw_of_allMapped {s : State} {rs : Reg} (h : AllMapped s (seen s 2 rs) 4) (rd : Reg) :
    exec (.lw rd rs) s = .next ((s.advance 2).setReg rd
      (assemble s.params.byteOrder ((addresses (seen s 2 rs) 4).map s.byteAt))) :=
  State.finish_loadInto_of_allMapped h rd id

end Sys2Proof.Machine
end

section
/-! The statements of spec/20_memory.md: the parameters (R51, R55), and a word read back (R64). -/

namespace Sys2Proof.Machine

open Sys2Proof.Claims

/-- Settles O14: a step is a fault of the fetch, which changes the status alone, or an instruction, and no update of
`Touches` reaches the parameters. -/
theorem stepKeepsParameters : Obligations.StepKeepsParameters := by
  intro s t hstep
  obtain ⟨-, ⟨c, -, rfl⟩ | ⟨i, -, hexec⟩⟩ := step_eq_next hstep
  · exact State.setStatus_params ..
  · exact (touches_of_exec hexec).params

/-- Settles O43: both accesses complete, and the word is assembled from the bytes it was split into. -/
theorem lwReturnsWhatSwStored : Obligations.LwReturnsWhatSwStored := by
  intro s rs rd rs' rd' hs hmapped
  obtain ⟨hmem, -, -⟩ := hs
  obtain ⟨hwf, -⟩ := Bool.and_eq_true_iff.1 hmem
  have hsw := exec_sw_of_allMapped hmapped rs
  refine ⟨_, hsw, fun haddr => ?_⟩
  have hmapped' := allMapped_of_params_eq (touches_of_exec hsw).params hmapped
  refine ⟨_, exec_lw_of_allMapped (haddr ▸ hmapped') rd', fun hrd' => ?_⟩
  rw [State.getReg_setReg, if_neg hrd', if_pos rfl, haddr, State.setMem_params, State.advance_params]
  exact Memory.assemble_storeBytes_split_four hwf _ _ _

end Sys2Proof.Machine
end

section
/-! The statements of spec/30_encoding.md: the encoder and the decoder agree (R90), and the first byte alone tells the
instruction and its length (R81, R96). -/

namespace Sys2Proof

open Sys2Proof.Claims

/-! ## Decoding what each format's encoder emits (R82 to R85, R90) -/

theorem decode_encodeOne {opcode : BitVec 7} {i : Instr} (h : formatOf (0b0#1 ++ opcode) = .ok (.one i))
    (rest : List Byte) : decode (encodeOne opcode ++ rest) = .ok (i, rest) :=
  decode_one h rest

theorem decode_encodeTwo {opcode : BitVec 5} {mk : Reg → Reg → Instr} (h : formatOf (0b110#3 ++ opcode) = .ok (.two mk))
    (rd rs : Reg) (rest : List Byte) : decode (encodeTwo opcode rd rs ++ rest) = .ok (mk rd rs, rest) :=
  (decode_two h (regField rd ++ regField rs) rest).trans (by simp)

/-- R88: a shift amount is read back only when it fits its field. -/
theorem decode_encodeThree {opcode : BitVec 4} {mk : Reg → Reg → Reg → Nat → Instr}
    (h : formatOf (0b1110#4 ++ opcode) = .ok (.three mk)) (rd rs rt : Reg) {shamt : Nat} (hshamt : shamt < 16)
    (rest : List Byte) : decode (encodeThree opcode rd rs rt shamt ++ rest) = .ok (mk rd rs rt shamt, rest) :=
  (decode_three h (regField rd ++ regField rs) (regField rt ++ BitVec.ofNat 4 shamt) rest).trans
    (by simp [shamtOf_field _ hshamt])

theorem decode_encodeFour {opcode : BitVec 3} {mk : Reg → Reg → BitVec 16 → Instr}
    (h : formatOf (0b11110#5 ++ opcode) = .ok (.four mk)) (rd rs : Reg) (imm : BitVec 16) (rest : List Byte) :
    decode (encodeFour opcode rd rs imm ++ rest) = .ok (mk rd rs imm, rest) :=
  (decode_four h (regField rd ++ regField rs) (imm.extractLsb' 8 8) (imm.extractLsb' 0 8) rest).trans (by simp)

/-- Settles O1: by cases on the instruction. The decoder undoes the encoder of its format, and what the table's row makes of
the operands is the instruction; well-formedness is used where an
operand is a number, for the shift amount (R88) and for the offset of `beq` (R87). -/
theorem decodeOfEncodeIsTheInstruction : Obligations.DecodeOfEncodeIsTheInstruction := by
  intro i rest hwf
  cases i with
  | syscall | nop => exact decode_encodeOne rfl rest
  | mov | jr | lw | sw | lb | sb | lh | sh | not | mul | div | push | pop | popf | popm | pushm =>
    exact Eq.trans (decode_encodeTwo rfl _ _ rest) rfl
  | and | or | xor | sllv | srlv | srav | add | sub => exact Eq.trans (decode_encodeThree rfl _ _ _ (by decide) rest) rfl
  | sll | srl | sra => exact Eq.trans (decode_encodeThree rfl _ _ _ (of_decide_eq_true hwf) rest) rfl
  | li | lui => exact Eq.trans (decode_encodeFour rfl _ _ _ rest) rfl
  | beq rd rs off =>
    have hoff : (BitVec.ofInt 16 off).toInt = off := toInt_ofInt_of_fits hwf
    exact Eq.trans (decode_encodeFour rfl rd rs _ rest) (by rw [hoff])

/-! ## The length that the first byte tells (R81, R96) -/

/-- R96: the classification agrees with the marker and the tables, byte by byte. -/
theorem lengthOf_eq_length_of_formatOf (b0 : Byte) : lengthOf b0 = (formatOf b0).toOption.map Format.length := by
  revert b0
  decide

theorem lengthOf_of_formatOf {b0 : Byte} {f : Format} (h : formatOf b0 = .ok f) : lengthOf b0 = some f.length := by
  rw [lengthOf_eq_length_of_formatOf, h]
  rfl

/-- Settles O3: `lengthOf` gives the length of the format that the byte selects, and nothing where it selects none. -/
theorem firstByteAloneSelects : Obligations.FirstByteAloneSelects := by
  refine fun b0 => ⟨?_, fun f => lengthOf_of_formatOf⟩
  rw [lengthOf_eq_length_of_formatOf]
  cases formatOf b0 <;> simp [Except.toOption]

/-! ## Every decoded instruction is well formed -/

theorem length_of_formatOf_one {b0 : Byte} {i : Instr} (h : formatOf b0 = .ok (.one i)) : i.length = 1 := by
  have all : ∀ row ∈ oneByteTable, row.2.length = 1 := by simp [oneByteTable, Instr.length]
  obtain ⟨-, _, hrow, ⟨⟩⟩ | ⟨-, _, hrow, ⟨⟩⟩ | ⟨-, _, hrow, ⟨⟩⟩ | ⟨-, _, hrow, ⟨⟩⟩ := formatOf_eq_ok h
  exact all _ hrow

/-- R88: the field of the shift amount holds 0 to 15. -/
theorem shamtOf_lt (b2 : Byte) : shamtOf b2 < 16 := BitVec.isLt _

/-- R87: the offset read from an immediate is a signed 16-bit number. -/
theorem offsetFits_toInt (imm : BitVec 16) : offsetFits imm.toInt = true := by
  have hlow := BitVec.le_toInt imm
  have hhigh := BitVec.toInt_lt (x := imm)
  simp only [offsetFits, Bool.and_eq_true, decide_eq_true_eq]
  omega

/-- Every instruction of the format is well formed, as far as its operands are read from their fields (R87, R88). -/
def Format.YieldsWellFormed : Format → Prop
  | .one i => i.wellFormed = true
  | .two mk => ∀ rd rs, (mk rd rs).wellFormed = true
  | .three mk => ∀ rd rs rt shamt, shamt < 16 → (mk rd rs rt shamt).wellFormed = true
  | .four mk => ∀ rd rs imm, (mk rd rs imm).wellFormed = true

theorem yieldsWellFormed_of_formatOf {b0 : Byte} {f : Format} (h : formatOf b0 = .ok f) : f.YieldsWellFormed := by
  obtain ⟨-, _, hrow, rfl⟩ | ⟨-, _, hrow, rfl⟩ | ⟨-, _, hrow, rfl⟩ | ⟨-, _, hrow, rfl⟩ := formatOf_eq_ok h
  · have all : ∀ row ∈ oneByteTable, row.2.wellFormed = true := by simp [oneByteTable, Instr.wellFormed]
    exact all _ hrow
  · intro rd rs
    have all : ∀ row ∈ twoByteTable, (row.2 rd rs).wellFormed = true := by simp [twoByteTable, Instr.wellFormed]
    exact all _ hrow
  · intro rd rs rt shamt hshamt
    have all : ∀ row ∈ threeByteTable, (row.2 rd rs rt shamt).wellFormed = true := by
      simp [threeByteTable, Instr.wellFormed, shamtFits, hshamt]
    exact all _ hrow
  · intro rd rs imm
    have all : ∀ row ∈ fourByteTable, (row.2 rd rs imm).wellFormed = true := by
      simp [fourByteTable, Instr.wellFormed, offsetFits_toInt]
    exact all _ hrow

/-- Settles O2: by the format that the first byte selects, which tells the length and how many operand bytes are taken. -/
theorem decodedIsWellFormedAndTakesItsLength : Obligations.DecodedIsWellFormedAndTakesItsLength := by
  intro b0 bs rest i h
  obtain ⟨hf, rfl⟩ | ⟨mk, b1, hf, rfl, rfl⟩ | ⟨mk, b1, b2, hf, rfl, rfl⟩ | ⟨mk, b1, b2, b3, hf, rfl, rfl⟩ :=
    decode_eq_ok h
  · rw [length_of_formatOf_one hf]
    exact ⟨yieldsWellFormed_of_formatOf hf, lengthOf_of_formatOf hf, [], rfl, rfl⟩
  · rw [length_of_formatOf_two hf]
    exact ⟨yieldsWellFormed_of_formatOf hf _ _, lengthOf_of_formatOf hf, [b1], rfl, rfl⟩
  · rw [length_of_formatOf_three hf]
    exact ⟨yieldsWellFormed_of_formatOf hf _ _ _ _ (shamtOf_lt b2), lengthOf_of_formatOf hf, [b1, b2], rfl, rfl⟩
  · rw [length_of_formatOf_four hf]
    exact ⟨yieldsWellFormed_of_formatOf hf _ _ _, lengthOf_of_formatOf hf, [b1, b2, b3], rfl, rfl⟩

/-- Settles O4: nine closed words, each decoded by evaluation. -/
theorem writtenOutWordsDecode : Obligations.WrittenOutWordsDecode := by
  unfold Obligations.WrittenOutWordsDecode
  decide

end Sys2Proof
end

section
/-! The statement of spec/40_single_byte.md: `nop` (R121). -/

namespace Sys2Proof.Machine

open Sys2Proof.Claims

/-- R22, R24: advancing the program counter writes no other register. -/
theorem regsAre_advance (s : State) (n : Nat) : RegsAre s (s.advance n) n [] := by
  intro q
  split
  · next hq => rw [hq, State.getReg_zero]
  · exact State.getReg_advance_eq_seen s n q

theorem hostSame_advance (s : State) (n : Nat) : HostSame s (s.advance n) :=
  ⟨State.advance_brk .., State.advance_out .., State.advance_oraclePos .., State.advance_status ..,
    State.advance_params ..⟩

/-- The frame of an instruction that only advances the program counter. -/
theorem onlyRegs_advance (s : State) (n : Nat) : OnlyRegs s (s.advance n) n [] :=
  ⟨regsAre_advance s n, State.advance_sr .., State.advance_byteAt s n, hostSame_advance s n⟩

/-- R121. -/
theorem exec_nop (s : State) : exec .nop s = .next (s.advance 1) := rfl

/-- Settles O25: the byte is the encoder's own, which the decoder undoes, and the answer is the advanced state. -/
theorem nopOnlyAdvancesThePc : Obligations.NopOnlyAdvancesThePc :=
  ⟨fun rest => decodeOfEncodeIsTheInstruction .nop rest rfl, rfl,
    fun s => ⟨s.advance 1, exec_nop s, onlyRegs_advance s 1⟩⟩

end Sys2Proof.Machine
end

section
/-! SUPPORT. The two-byte form (spec/30_encoding.md R83, R89): the byte `{rd, rs}` and the row that the first byte
selects. -/

namespace Sys2Proof

open Sys2Proof.Claims

/-- R83: the second byte, written as a number, is the concatenation of its two fields. -/
theorem nibbles_eq_fields (hi lo : Reg) : nibbles hi lo = regField hi ++ regField lo := by
  revert hi lo
  decide

@[simp] theorem highReg_nibbles (hi lo : Reg) : highReg (nibbles hi lo) = hi := by
  rw [nibbles_eq_fields, highReg_regField]

@[simp] theorem lowReg_nibbles (hi lo : Reg) : lowReg (nibbles hi lo) = lo := by
  rw [nibbles_eq_fields, lowReg_regField]

theorem encodeTwo_eq_nibbles (opcode : BitVec 5) (rd rs : Reg) :
    encodeTwo opcode rd rs = [0b110#3 ++ opcode, nibbles rd rs] := by
  rw [nibbles_eq_fields, encodeTwo]

/-- R83: what the first byte selects gives the decoding of every second byte; the encoding is the constructor's own. -/
theorem twoByteForm_of_formatOf {b0 : Byte} {mk : Reg → Reg → Instr} {canon : Reg → Reg → Byte}
    (hformat : formatOf b0 = .ok (.two mk)) (hencode : ∀ rd rs, encode (mk rd rs) = [b0, canon rd rs]) :
    TwoByteForm b0 mk canon := by
  refine fun rd rs => ⟨fun rest => ?_, hencode rd rs⟩
  rw [decode_two hformat, highReg_nibbles, lowReg_nibbles]

end Sys2Proof
end

section
/-! SUPPORT. The frames of the statements under the model's updates: each register write stands first in the list of
writes (spec/00_scope.md R17), and no update reaches more than it names. -/

namespace Sys2Proof.Claims

open Sys2Proof.Machine

variable {s t : State} {n : Nat} {writes : List (Reg × Word)}

/-- R17, R22: one more write, later than the others. -/
theorem RegsAre.setReg (h : RegsAre s t n writes) (r : Reg) (v : Word) :
    RegsAre s (t.setReg r v) n ((r, v) :: writes) := by
  intro q
  rw [State.getReg_setReg]
  by_cases hzero : q = Reg.zero
  · rw [if_pos hzero, if_pos hzero]
  · by_cases hq : q = r
    · simp [hq]
    · simp [hzero, hq, h q, List.lookup_cons, beq_false_of_ne hq]

theorem HostSame.setReg (h : HostSame s t) (r : Reg) (v : Word) : HostSame s (t.setReg r v) := by
  simpa [HostSame, HostState] using h

theorem OnlyRegs.setReg (h : OnlyRegs s t n writes) (r : Reg) (v : Word) :
    OnlyRegs s (t.setReg r v) n ((r, v) :: writes) := by
  obtain ⟨hregs, hsr, hmem, hhost⟩ := h
  exact ⟨hregs.setReg r v, by simp [hsr], fun a => by simp [hmem a], hhost.setReg r v⟩

/-- R16: `SetFlags` after the register writes. -/
theorem OnlyRegs.setFlags (h : OnlyRegs s t n writes) (f : FlagBits) :
    RegsAndFlags s (t.setFlags f) n writes f.section := by
  obtain ⟨hregs, hsr, hmem, hhost⟩ := h
  exact ⟨hregs, by simp [hsr], hmem, hhost⟩

/-- R32: a computing instruction with one result. -/
theorem regsAndFlags_compute (s : State) (n : Nat) (op : Compute) (rd : Reg) (a b : Word) :
    RegsAndFlags s ((s.advance n).compute op rd a b) n [(rd, resultOf op s.u a b)]
      (flagsOf op s.u a b).section := by
  rw [← State.advance_u s n]
  exact ((onlyRegs_advance s n).setReg rd _).setFlags _

/-- R139, R140: a computing instruction with two results, v1 written last. -/
theorem regsAndFlags_computePair (s : State) (n : Nat) (op : Compute) (a b : Word) :
    RegsAndFlags s ((s.advance n).computePair op a b) n
      [(Reg.v1, secondOf op s.u a b), (Reg.v0, resultOf op s.u a b)] (flagsOf op s.u a b).section := by
  rw [← State.advance_u s n]
  exact (((onlyRegs_advance s n).setReg Reg.v0 _).setReg Reg.v1 _).setFlags _

/-! ## Stores -/

/-- From `s` to `t` by a two-byte instruction that stores the low `n` bytes of `v` at `addr` and makes these register
writes, and nothing else. -/
def StoresDatum (s t : State) (addr : Word) (n : Nat) (v : Word) (writes : List (Reg × Word)) : Prop :=
  RegsAre s t 2 writes ∧ t.sr = s.sr ∧ HostSame s t ∧ MemSameOutside s t addr n ∧
    (s.mem.wf = true → ∀ k < n, t.byteAt (addr + BitVec.ofNat 32 k) = datumByte s.params.byteOrder n v k)

theorem StoresDatum.setReg {addr v : Word} (h : StoresDatum s t addr n v writes) (r : Reg) (w : Word) :
    StoresDatum s (t.setReg r w) addr n v ((r, w) :: writes) := by
  obtain ⟨hregs, hsr, hhost, hout, hin⟩ := h
  exact ⟨hregs.setReg r w, by simp [hsr], hhost.setReg r w, fun a ha => by simp [hout a ha],
    fun hwf k hk => by simp [hin hwf k hk]⟩

/-- R57: the bytes that a datum is split into. -/
theorem getElem_split (order : ByteOrder) (n : Nat) (v : Word) (k : Nat) (h : k < (split order n v).length) :
    (split order n v)[k] = datumByte order n v k := by
  cases order with
  | big => exact getElem_split_big n v k h
  | little => exact getElem_split_little n v k h

/-- R57: the store of a datum that does not run into itself round the address space. -/
theorem storesDatum_storeBytes (s : State) (addr : Word) {n : Nat} (hn : n ≤ 2 ^ 32) (v : Word) :
    StoresDatum s ((s.advance 2).setMem (s.mem.storeBytes addr (split s.params.byteOrder n v))) addr n v [] := by
  refine ⟨regsAre_advance s 2, State.advance_sr s 2, hostSame_advance s 2, fun a ha => ?_, fun hwf k hk => ?_⟩
  · exact Memory.byteAt_storeBytes_of_ne _ _ _ a (by simpa using ha)
  · rw [State.setMem_byteAt, Memory.byteAt_storeBytes hwf _ _ (by simpa using hn) k (by simpa using hk), getElem_split]

end Sys2Proof.Claims
end

section
/-! SUPPORT. Accesses of data: the value of the bytes read (spec/20_memory.md R55, R56), the faults (R223), and the two
rules that the loads and the stores of spec/41_two_byte.md share. -/

namespace Sys2Proof.Machine

open Sys2Proof.Claims

/-! ## The value of the bytes read -/

theorem assemble_addresses_one (s : State) (a : Word) :
    assemble s.params.byteOrder ((addresses a 1).map s.byteAt) = (s.byteAt a).setWidth 32 := by
  have hbytes : (addresses a 1).map s.byteAt = [s.byteAt a] := by simp [addresses]
  rw [hbytes]
  cases s.params.byteOrder with
  | big => exact assemble_big_one _
  | little => exact assemble_big_one _

theorem assemble_addresses_two (s : State) (a : Word) :
    assemble s.params.byteOrder ((addresses a 2).map s.byteAt) = (halfAt s a).setWidth 32 := by
  have hbytes : (addresses a 2).map s.byteAt = [s.byteAt a, s.byteAt (a + 1)] := by simp [addresses, List.range_succ]
  rw [hbytes, halfAt]
  cases s.params.byteOrder with
  | big => exact assemble_big_two _ _
  | little => exact assemble_big_two _ _

theorem assemble_addresses_four (s : State) (a : Word) :
    assemble s.params.byteOrder ((addresses a 4).map s.byteAt) = wordAt s a := by
  have hbytes : (addresses a 4).map s.byteAt =
      [s.byteAt a, s.byteAt (a + 1), s.byteAt (a + 2), s.byteAt (a + 3)] := by
    simp [addresses, List.range_succ]
  rw [hbytes, wordAt]
  cases s.params.byteOrder with
  | big => exact assemble_big_four _ _ _ _
  | little => exact assemble_big_four _ _ _ _

/-- R12, R34: extension of a narrow datum, held in a word as `memRead` gives it. -/
theorem extendNarrow_setWidth {n : Nat} (hn : n ≤ 32) (u : Bool) (v : BitVec n) :
    extendNarrow n u (v.setWidth 32) = if u then v.setWidth 32 else v.signExtend 32 := by
  rw [extendNarrow, BitVec.setWidth_setWidth_of_le v hn, BitVec.setWidth_eq]

/-! ## Accesses of the advanced state, to mapped bytes and past them -/

theorem memRead_of_allMapped {s : State} {addr : Word} {n : Nat} (h : AllMapped s addr n) :
    (s.advance 2).memRead addr n = .ok (assemble s.params.byteOrder ((addresses addr n).map s.byteAt)) := by
  refine State.memRead_eq_ok.2 ⟨allMapped_of_params_eq (State.advance_params ..) h, ?_⟩
  simp [funext (State.advance_byteAt s 2)]

theorem memWrite_of_allMapped {s : State} {addr : Word} {n : Nat} (h : AllMapped s addr n) (v : Word) :
    (s.advance 2).memWrite addr n v =
      .ok ((s.advance 2).setMem (s.mem.storeBytes addr (split s.params.byteOrder n v))) :=
  State.memWrite_eq_ok.2 ⟨allMapped_of_params_eq (State.advance_params ..) h, by simp⟩

theorem firstUnmapped_advance {s : State} {addr x : Word} {n : Nat} (h : FirstUnmapped s addr n x) (k : Nat) :
    (s.advance k).firstUnmapped addr n = some x := by
  rw [State.firstUnmapped_congr (State.advance_params ..)]
  exact State.firstUnmapped_eq_some.2 h

theorem memRead_of_firstUnmapped {s : State} {addr x : Word} {n : Nat} (h : FirstUnmapped s addr n x) :
    (s.advance 2).memRead addr n = .error (.memFault x .read) :=
  State.memRead_eq_error.2 ⟨x, firstUnmapped_advance h 2, rfl⟩

theorem memWrite_of_firstUnmapped {s : State} {addr x : Word} {n : Nat} (h : FirstUnmapped s addr n x) (v : Word) :
    (s.advance 2).memWrite addr n v = .error (.memFault x .write) :=
  State.memWrite_eq_error.2 ⟨x, firstUnmapped_advance h 2, rfl⟩

/-! ## Loads and stores -/

/-- R132, R134, R136: an instruction that is a load of `n` bytes, widened so, follows the rule of loads. -/
theorem loadRule_of_loadInto {mk : Reg → Reg → Instr} {n : Nat} {widen : State → Word → Word}
    {value : State → Word → Word}
    (hexec : ∀ s rd rs, exec (mk rd rs) s = s.finish ((s.advance 2).loadInto rd rs n (widen s)))
    (hvalue : ∀ s a, widen s (assemble s.params.byteOrder ((addresses a n).map s.byteAt)) = value s a) :
    LoadRule mk n value := by
  refine fun s rd rs => ⟨fun hmapped => ?_, fun x hx => ?_⟩
  · refine ⟨_, (hexec s rd rs).trans (State.finish_loadInto_of_allMapped hmapped rd _), ?_⟩
    rw [hvalue]
    exact (onlyRegs_advance s 2).setReg rd _
  · rw [hexec, State.loadInto, State.getReg_advance_eq_seen, memRead_of_firstUnmapped hx]
    rfl

/-- R133, R135, R137: an instruction that is a store of `n` bytes follows the rule of stores. -/
theorem storeRule_of_memWrite {mk : Reg → Reg → Instr} {n : Nat} (hn : n ≤ 2 ^ 32)
    (hexec : ∀ s rs rd, exec (mk rs rd) s =
      s.finish ((s.advance 2).memWrite ((s.advance 2).getReg rd) n ((s.advance 2).getReg rs))) :
    StoreRule mk n := by
  intro s rs rd
  rw [hexec, State.getReg_advance_eq_seen, State.getReg_advance_eq_seen]
  refine ⟨fun hmapped => ?_, fun x hx => ?_⟩
  · exact ⟨_, State.finish_memWrite_of_allMapped hmapped _, storesDatum_storeBytes s _ hn _⟩
  · rw [memWrite_of_firstUnmapped hx]
    rfl

/-! ## Stack -/

/-- R24: sp is not the program counter, so `push` and `pop` see the one of the state before. -/
theorem State.getReg_sp_advance (s : State) (n : Nat) : (s.advance n).getReg Reg.sp = s.getReg Reg.sp :=
  State.getReg_advance_of_ne_pc (by decide) s n

/-- R141. -/
theorem exec_push_of_allMapped {s : State} (h : AllMapped s (s.getReg Reg.sp) 4) (rs : Reg) :
    exec (.push rs) s = .next (((s.advance 2).setMem (s.mem.storeBytes (s.getReg Reg.sp)
      (split s.params.byteOrder 4 (seen s 2 rs)))).setReg Reg.sp (s.getReg Reg.sp - 4)) := by
  rw [show exec (.push rs) s = execPush rs s from rfl, execPush, pushAddress]
  rw [State.getReg_sp_advance, State.getReg_advance_eq_seen, memWrite_of_allMapped h]
  rfl

theorem exec_push_of_firstUnmapped {s : State} {x : Word} (h : FirstUnmapped s (s.getReg Reg.sp) 4 x) (rs : Reg) :
    exec (.push rs) s = .next (faultedAs s (.memFault x .write)) := by
  rw [show exec (.push rs) s = execPush rs s from rfl, execPush, pushAddress]
  rw [State.getReg_sp_advance, memWrite_of_firstUnmapped h]
  rfl

/-- R142. -/
theorem exec_pop_of_allMapped {s : State} (h : AllMapped s (s.getReg Reg.sp + 4) 4) (rd : Reg) :
    exec (.pop rd) s = .next (((s.advance 2).setReg Reg.sp (s.getReg Reg.sp + 4)).setReg rd
      (wordAt s (s.getReg Reg.sp + 4))) := by
  rw [show exec (.pop rd) s = execPop rd s from rfl, execPop, popAddress]
  rw [State.getReg_sp_advance, memRead_of_allMapped h, assemble_addresses_four]
  rfl

theorem exec_pop_of_firstUnmapped {s : State} {x : Word} (h : FirstUnmapped s (s.getReg Reg.sp + 4) 4 x) (rd : Reg) :
    exec (.pop rd) s = .next (faultedAs s (.memFault x .read)) := by
  rw [show exec (.pop rd) s = execPop rd s from rfl, execPop, popAddress]
  rw [State.getReg_sp_advance, memRead_of_firstUnmapped h]
  rfl

/-- R55 to R57: the word read where a word was stored. -/
theorem wordAt_of_mem_eq_storeBytes {s t : State} (hwf : s.mem.wf = true) {addr v : Word} (hp : t.params = s.params)
    (hm : t.mem = s.mem.storeBytes addr (split s.params.byteOrder 4 v)) : wordAt t addr = v := by
  rw [← assemble_addresses_four, hp, show t.byteAt = fun a => t.mem.byteAt a.toNat from rfl, hm]
  exact Memory.assemble_storeBytes_split_four hwf _ _ _

end Sys2Proof.Machine
end

section
/-! SUPPORT. The other two-byte instructions: what each answers, and the arithmetic of `mul` and `div` in the terms of
the statements (spec/41_two_byte.md R130, R131, R138 to R140, R143 to R145). -/

namespace Sys2Proof.Machine

open Sys2Proof.Claims

/-! ## Answers -/

section
variable (rd rs : Reg) (s : State)

/-- R130. -/
theorem exec_mov : exec (.mov rd rs) s = .next ((s.advance 2).setReg rd (seen s 2 rs)) := by
  rw [← State.getReg_advance_eq_seen]
  rfl

/-- R131. -/
theorem exec_jr : exec (.jr rd) s = .next ((s.advance 2).setReg Reg.pc (seen s 2 rd)) := by
  rw [← State.getReg_advance_eq_seen]
  rfl

/-- R138. -/
theorem exec_not : exec (.not rd rs) s = .next ((s.advance 2).compute .not rd (seen s 2 rs) 0) := by
  rw [← State.getReg_advance_eq_seen]
  rfl

/-- R139. -/
theorem exec_mul :
    exec (.mul rd rs) s = .next ((s.advance 2).computePair .mul (seen s 2 rd) (seen s 2 rs)) := by
  simp only [← State.getReg_advance_eq_seen]
  rfl

/-- R140, R224. -/
theorem exec_div :
    exec (.div rd rs) s = if seen s 2 rs = 0 then .next (faultedAs s .divideByZero)
      else .next ((s.advance 2).computePair .div (seen s 2 rd) (seen s 2 rs)) := by
  simp only [← State.getReg_advance_eq_seen]
  rfl

/-- R143. -/
theorem exec_popf : exec (.popf rd) s = .next ((s.advance 2).setReg rd (s.sr.flags.setWidth 32)) := by
  rw [← State.advance_sr s 2]
  rfl

/-- R144. -/
theorem exec_popm : exec (.popm rd) s = .next ((s.advance 2).setReg rd (s.sr.modifiers.setWidth 32)) := by
  rw [← State.advance_sr s 2]
  rfl

/-- R145. -/
theorem exec_pushm : exec (.pushm rs) s = .next ((s.advance 2).setModifiers ((seen s 2 rs).extractLsb' 0 4)) := by
  rw [← State.getReg_advance_eq_seen, ← BitVec.setWidth_eq_extractLsb' (by decide)]
  rfl

end

/-! ## Product and quotient -/

/-- R139: the exact product modulo 2^64 is the product of the operands extended to 64 bits. -/
theorem product_eq_mul (u : Bool) (a b : Word) :
    product u a b = if u then a.setWidth 64 * b.setWidth 64 else a.signExtend 64 * b.signExtend 64 := by
  cases u with
  | true => simp only [product, if_true, BitVec.ofNat_mul, BitVec.ofNat_toNat]
  | false => exact BitVec.ofInt_mul ..

/-- R140: the quotient, unsigned when U is set and toward zero when U is clear. -/
theorem quotient_eq (u : Bool) (a b : Word) :
    quotient u a b = if u then BitVec.ofNat 32 (a.toNat / b.toNat) else BitVec.ofInt 32 (a.toInt.tdiv b.toInt) := by
  cases u with
  | true => exact BitVec.ofInt_natCast ..
  | false => rfl

/-- R140: dividend less quotient times divisor is the remainder that goes with the quotient. -/
theorem remainder_eq (u : Bool) (a b : Word) :
    remainder u a b = if u then BitVec.ofNat 32 (a.toNat % b.toNat) else BitVec.ofInt 32 (a.toInt.tmod b.toInt) := by
  cases u with
  | true =>
    have hmod : remainderInt true a b = (a.toNat % b.toNat : Nat) := by
      rw [Int.natCast_emod, Int.emod_def, mul_comm]
      rfl
    rw [remainder, hmod, BitVec.ofInt_natCast]
    rfl
  | false =>
    have hmod : remainderInt false a b = a.toInt.tmod b.toInt := by
      rw [Int.tmod_def, mul_comm]
      rfl
    rw [remainder, hmod]
    rfl

/-! ## Flags -/

/-- R16: the flags section is the word of the four flags. -/
theorem section_eq_flagWord (f : FlagBits) : f.section = flagWord f.z f.c f.s f.o := by
  obtain ⟨z, c, s, o⟩ := f
  revert z c s o
  decide

/-- R16, `SetZS`. -/
theorem section_zsFlags (r : Word) : (zsFlags r).section = zs r := by
  simp only [section_eq_flagWord, zsFlags, zs, beq_eq_decide]

/-- R139. -/
theorem section_mulFlags (u : Bool) (a b : Word) :
    (mulFlags u a b).section = flagWord (product u a b = 0) false (product u a b).msb false := by
  simp only [section_eq_flagWord, mulFlags, beq_eq_decide]

/-- R140: the overflow is -2^31 / -1 with U clear. -/
theorem section_divFlags (u : Bool) (a b : Word) :
    (divFlags u a b).section = flagWord (quotient u a b = 0) false (quotient u a b).msb
      (u = false ∧ a = 0x80000000 ∧ b = 0xFFFFFFFF) := by
  simp only [section_eq_flagWord, divFlags, beq_eq_decide, Bool.decide_and, Bool.decide_eq_false, Bool.and_assoc]

end Sys2Proof.Machine
end

section
/-! The statements of spec/41_two_byte.md: the two-byte instructions (R130 to R145). The first conjunct of each is the
form of R83, read off the row of R95 that the first byte selects and the constructor's own encoding. -/

namespace Sys2Proof.Machine

open Sys2Proof.Claims

/-- Settles O26: one register write after the advance. -/
theorem movCopiesARegister : Obligations.MovCopiesARegister :=
  ⟨twoByteForm_of_formatOf rfl fun _ _ => encodeTwo_eq_nibbles ..,
    fun s rd rs => ⟨_, exec_mov rd rs s, (onlyRegs_advance s 2).setReg rd _⟩⟩

/-- Settles O27: a jump is a write to register 4. -/
theorem jrJumpsToTheRegister : Obligations.JrJumpsToTheRegister :=
  ⟨twoByteForm_of_formatOf rfl fun _ _ => encodeTwo_eq_nibbles ..,
    fun s rd => ⟨_, exec_jr rd s, (onlyRegs_advance s 2).setReg Reg.pc _⟩⟩

/-- Settles O28: the rule of loads, with the word in the byte order as its value. -/
theorem lwLoadsAWord : Obligations.LwLoadsAWord :=
  ⟨twoByteForm_of_formatOf rfl fun _ _ => encodeTwo_eq_nibbles ..,
    loadRule_of_loadInto (widen := fun _ => id) (fun _ _ _ => rfl) assemble_addresses_four⟩

/-- Settles O29: the rule of stores for four bytes. -/
theorem swStoresAWord : Obligations.SwStoresAWord :=
  ⟨twoByteForm_of_formatOf rfl fun _ _ => encodeTwo_eq_nibbles ..,
    storeRule_of_memWrite (by decide) fun _ _ _ => rfl⟩

/-- Settles O30: the rule of loads, with the byte extended as U says. -/
theorem lbLoadsAByteExtendedByU : Obligations.LbLoadsAByteExtendedByU := by
  refine ⟨twoByteForm_of_formatOf rfl fun _ _ => encodeTwo_eq_nibbles ..,
    loadRule_of_loadInto (widen := fun s => extendNarrow 8 (s.advance 2).u) (fun _ _ _ => rfl) fun s a => ?_⟩
  rw [assemble_addresses_one, extendNarrow_setWidth (by decide), State.advance_u]
  rfl

/-- Settles O31: the rule of stores for one byte. -/
theorem sbStoresAByte : Obligations.SbStoresAByte :=
  ⟨twoByteForm_of_formatOf rfl fun _ _ => encodeTwo_eq_nibbles ..,
    storeRule_of_memWrite (by decide) fun _ _ _ => rfl⟩

/-- Settles O32: the rule of loads, with the half extended as U says. -/
theorem lhLoadsAHalfExtendedByU : Obligations.LhLoadsAHalfExtendedByU := by
  refine ⟨twoByteForm_of_formatOf rfl fun _ _ => encodeTwo_eq_nibbles ..,
    loadRule_of_loadInto (widen := fun s => extendNarrow 16 (s.advance 2).u) (fun _ _ _ => rfl) fun s a => ?_⟩
  rw [assemble_addresses_two, extendNarrow_setWidth (by decide), State.advance_u]
  rfl

/-- Settles O33: the rule of stores for two bytes. -/
theorem shStoresAHalf : Obligations.ShStoresAHalf :=
  ⟨twoByteForm_of_formatOf rfl fun _ _ => encodeTwo_eq_nibbles ..,
    storeRule_of_memWrite (by decide) fun _ _ _ => rfl⟩

/-- Settles O34: one result, with the flags of `SetZS`. -/
theorem notComplementsIntoRd : Obligations.NotComplementsIntoRd := by
  refine ⟨twoByteForm_of_formatOf rfl fun _ _ => encodeTwo_eq_nibbles ..,
    fun s rd rs => ⟨_, exec_not rd rs s, ?_⟩⟩
  rw [← section_zsFlags]
  exact regsAndFlags_compute s 2 .not rd _ _

/-- Settles O35: the halves and the flags are those of the one 64-bit product. -/
theorem mulGivesTheWholeProduct : Obligations.MulGivesTheWholeProduct := by
  refine ⟨twoByteForm_of_formatOf rfl fun _ _ => encodeTwo_eq_nibbles .., fun s rd rs P hP => ?_⟩
  obtain rfl : product s.u (seen s 2 rd) (seen s 2 rs) = P := (product_eq_mul ..).trans hP.symm
  refine ⟨_, exec_mul rd rs s, ?_⟩
  rw [← section_mulFlags]
  exact regsAndFlags_computePair s 2 .mul _ _

/-- Settles O36: by cases on the divisor. -/
theorem divGivesQuotientAndRemainder : Obligations.DivGivesQuotientAndRemainder := by
  refine ⟨twoByteForm_of_formatOf rfl fun _ _ => encodeTwo_eq_nibbles .., ?_⟩
  rintro s rd rs _ _ q r rfl rfl
  refine ⟨fun hzero => (exec_div rd rs s).trans (if_pos hzero), fun hnonzero hq hr => ?_⟩
  obtain rfl : quotient s.u (seen s 2 rd) (seen s 2 rs) = q := (quotient_eq ..).trans hq.symm
  obtain rfl : remainder s.u (seen s 2 rd) (seen s 2 rs) = r := (remainder_eq ..).trans hr.symm
  refine ⟨_, (exec_div rd rs s).trans (if_neg hnonzero), ?_⟩
  exact section_divFlags s.u (seen s 2 rd) (seen s 2 rs) ▸ regsAndFlags_computePair s 2 .div _ _

/-- Settles O37: a store at sp, then the write to sp. -/
theorem pushStoresThenMovesSpDown : Obligations.PushStoresThenMovesSpDown :=
  ⟨twoByteForm_of_formatOf rfl fun _ _ => encodeTwo_eq_nibbles ..,
    fun s rs => ⟨fun hmapped => ⟨_, exec_push_of_allMapped hmapped rs,
      (storesDatum_storeBytes s _ (by decide) _).setReg Reg.sp _⟩, fun _ hx => exec_push_of_firstUnmapped hx rs⟩⟩

/-- Settles O38: the write to sp, then the write to `rd`. -/
theorem popMovesSpUpThenLoads : Obligations.PopMovesSpUpThenLoads :=
  ⟨twoByteForm_of_formatOf rfl fun _ _ => encodeTwo_eq_nibbles ..,
    fun s rd => ⟨fun hmapped => ⟨_, exec_pop_of_allMapped hmapped rd,
      ((onlyRegs_advance s 2).setReg Reg.sp _).setReg rd _⟩, fun _ hx => exec_pop_of_firstUnmapped hx rd⟩⟩

/-- Settles O39: one register write after the advance. -/
theorem popfCopiesTheFlags : Obligations.PopfCopiesTheFlags :=
  ⟨twoByteForm_of_formatOf rfl fun _ _ => encodeTwo_eq_nibbles ..,
    fun s rd => ⟨_, exec_popf rd s, (onlyRegs_advance s 2).setReg rd _⟩⟩

/-- Settles O40: one register write after the advance. -/
theorem popmCopiesTheModifiers : Obligations.PopmCopiesTheModifiers :=
  ⟨twoByteForm_of_formatOf rfl fun _ _ => encodeTwo_eq_nibbles ..,
    fun s rd => ⟨_, exec_popm rd s, (onlyRegs_advance s 2).setReg rd _⟩⟩

/-- Settles O41: the modifiers section is the one update after the advance. -/
theorem pushmWritesTheModifiers : Obligations.PushmWritesTheModifiers := by
  refine ⟨twoByteForm_of_formatOf rfl fun _ _ => encodeTwo_eq_nibbles .., fun s rs => ⟨_, exec_pushm rs s, ?_⟩⟩
  obtain ⟨hregs, hsr, hmem, hhost⟩ := onlyRegs_advance s 2
  exact ⟨hregs, by simp, hmem, hhost⟩

/-- Settles O42: `pop` reads 4 above where `push` left sp, which is where `push` stored. -/
theorem popReturnsWhatPushStored : Obligations.PopReturnsWhatPushStored := by
  intro s rs rd hs hmapped
  obtain ⟨hmemOk, -, -⟩ := hs
  obtain ⟨hwf, -⟩ := Bool.and_eq_true_iff.1 hmemOk
  have hpush := exec_push_of_allMapped hmapped rs
  generalize ht : State.setReg _ Reg.sp _ = t at hpush
  have hparams : t.params = s.params := (touches_of_exec hpush).params
  have hsp : t.getReg Reg.sp + 4 = s.getReg Reg.sp := by
    rw [← ht, State.getReg_setReg, if_neg (by decide), if_pos rfl, BitVec.sub_add_cancel]
  have hword : wordAt t (s.getReg Reg.sp) = seen s 2 rs :=
    wordAt_of_mem_eq_storeBytes hwf hparams (by simp [← ht])
  have hpop := exec_pop_of_allMapped (hsp.symm ▸ allMapped_of_params_eq hparams hmapped) rd
  rw [hsp, hword] at hpop
  refine ⟨t, _, hpush, hpop, fun hrd => ?_, fun hrd => ?_⟩
  · rw [State.getReg_setReg, if_neg hrd, if_pos rfl]
  · rw [State.getReg_setReg_of_ne hrd.symm, State.getReg_setReg, if_neg (by decide), if_pos rfl]

end Sys2Proof.Machine
end

section
/-! SUPPORT. The three-byte form (spec/30_encoding.md R84, R88, R89): the bytes `{rd, rs}` and `{rt, shamt}`, and the row
that the first byte selects. -/

namespace Sys2Proof

open Sys2Proof.Claims

/-- A four-bit number is the field of a register's number. -/
theorem ofNat_val_eq_regField (r : Reg) : BitVec.ofNat 4 r.val = regField r :=
  BitVec.eq_of_toNat_eq (Nat.mod_eq_of_lt r.isLt)

/-- R88: the low field of the third byte, as a number. -/
@[simp] theorem shamtOf_nibbles (hi lo : Fin 16) : shamtOf (nibbles hi lo) = lo.val := by
  rw [nibbles_eq_fields, ← ofNat_val_eq_regField lo, shamtOf_field _ lo.isLt]

theorem encodeThree_eq_nibbles (opcode : BitVec 4) (rd rs rt : Reg) (sh : Fin 16) :
    encodeThree opcode rd rs rt sh.val = [0b1110#4 ++ opcode, nibbles rd rs, nibbles rt sh] := by
  rw [encodeThree, ofNat_val_eq_regField, nibbles_eq_fields, nibbles_eq_fields]

/-- R84: the row that the first byte selects gives the decoding of every second and third byte; the encoding is the
constructor's own. -/
theorem threeByteForm_of_formatOf {b0 : Byte} {row : Reg → Reg → Reg → Nat → Instr}
    {mk : Reg → Reg → Reg → Fin 16 → Instr} {canon : Reg → Fin 16 → Byte} (hformat : formatOf b0 = .ok (.three row))
    (hrow : ∀ rd rs rt (sh : Fin 16), row rd rs rt sh.val = mk rd rs rt sh)
    (hencode : ∀ rd rs rt sh, encode (mk rd rs rt sh) = [b0, nibbles rd rs, canon rt sh]) :
    ThreeByteForm b0 mk canon := by
  refine fun rd rs rt sh => ⟨fun rest => ?_, hencode rd rs rt sh⟩
  rw [decode_three hformat, highReg_nibbles, lowReg_nibbles, highReg_nibbles, shamtOf_nibbles, hrow]

/-- R89: an instruction on three registers leaves the field of the amount unused. -/
theorem threeByteForm_registers {b0 : Byte} {opcode : BitVec 4} {mk : Reg → Reg → Reg → Instr}
    (hformat : formatOf b0 = .ok (.three fun rd rs rt _ => mk rd rs rt))
    (hencode : ∀ rd rs rt, encode (mk rd rs rt) = encodeThree opcode rd rs rt 0) (hb0 : 0b1110#4 ++ opcode = b0) :
    ThreeByteForm b0 (fun rd rs rt _ => mk rd rs rt) fun rt _ => nibbles rt 0 :=
  threeByteForm_of_formatOf hformat (fun _ _ _ _ => rfl) fun rd rs rt _ => by
    rw [hencode, ← hb0]
    exact encodeThree_eq_nibbles opcode rd rs rt 0

/-- R88, R89: a shift by the field leaves `rt` unused. -/
theorem threeByteForm_shamt {b0 : Byte} {opcode : BitVec 4} {mk : Reg → Reg → Nat → Instr}
    (hformat : formatOf b0 = .ok (.three fun rd rs _ sh => mk rd rs sh))
    (hencode : ∀ rd rs sh, encode (mk rd rs sh) = encodeThree opcode rd rs 0 sh) (hb0 : 0b1110#4 ++ opcode = b0) :
    ThreeByteForm b0 (fun rd rs _ sh => mk rd rs sh.val) fun _ sh => nibbles 0 sh :=
  threeByteForm_of_formatOf hformat (fun _ _ _ _ => rfl) fun rd rs _ sh => by
    rw [hencode, ← hb0, encodeThree_eq_nibbles]

end Sys2Proof
end

section
/-! SUPPORT. The two forms of three-byte instruction (spec/42_three_byte.md R160), and the shifts and the flags of `add`
and `sub` in the terms of the statements (R164 to R171). -/

namespace Sys2Proof.Machine

open Sys2Proof.Claims

/-! ## Answers -/

/-- The form `rd, rs, rt`. -/
theorem computeRegisters_eq (op : Compute) (rd rs rt : Reg) (s : State) :
    computeRegisters op rd rs rt s = .next ((s.advance 3).compute op rd (seen s 3 rs) (seen s 3 rt)) := by
  simp only [← State.getReg_advance_eq_seen]
  rfl

/-- The form `rd, rs, shamt`. -/
theorem computeShamt_eq (op : Compute) (rd rs : Reg) (shamt : Nat) (s : State) :
    computeShamt op rd rs shamt s = .next ((s.advance 3).compute op rd (seen s 3 rs) (BitVec.ofNat 32 shamt)) := by
  rw [← State.getReg_advance_eq_seen]
  rfl

/-- R160: an instruction on two registers, whose result and flags are these of its operands for either U. -/
theorem registerRule_of_computeRegisters {mk : Reg → Reg → Reg → Instr} {op : Compute} {value : Word → Word → Word}
    {flags : Word → Word → BitVec 8} (hexec : ∀ s rd rs rt, exec (mk rd rs rt) s = computeRegisters op rd rs rt s)
    (hvalue : ∀ u a b, resultOf op u a b = value a b) (hflags : ∀ u a b, (flagsOf op u a b).section = flags a b) :
    RegisterRule mk value flags := by
  refine fun s rd rs rt => ⟨_, (hexec s rd rs rt).trans (computeRegisters_eq op rd rs rt s), ?_⟩
  rw [← hvalue s.u, ← hflags s.u]
  exact regsAndFlags_compute s 3 op rd _ _

/-- R16, R160: likewise with the flags of `SetZS`. -/
theorem registerRule_of_zsFlags {mk : Reg → Reg → Reg → Instr} {op : Compute} {value : Word → Word → Word}
    (hexec : ∀ s rd rs rt, exec (mk rd rs rt) s = computeRegisters op rd rs rt s)
    (hvalue : ∀ u a b, resultOf op u a b = value a b)
    (hflags : ∀ u a b, flagsOf op u a b = zsFlags (resultOf op u a b)) :
    RegisterRule mk value (fun a b => zs (value a b)) :=
  registerRule_of_computeRegisters hexec hvalue fun u a b => by rw [hflags, hvalue, section_zsFlags]

/-- R88, R164 to R166: a shift by the field, the amount reaching the shift as the word of the field's number. -/
theorem shamtRule_of_computeShamt {mk : Reg → Reg → Nat → Instr} {op : Compute} {value : Word → Nat → Word}
    (hexec : ∀ s rd rs sh, exec (mk rd rs sh) s = computeShamt op rd rs sh s)
    (hvalue : ∀ u a b, resultOf op u a b = value a b.toNat)
    (hflags : ∀ u a b, flagsOf op u a b = zsFlags (resultOf op u a b)) : ShamtRule mk value := by
  refine fun s rd rs sh => ⟨_, (hexec s rd rs sh).trans (computeShamt_eq op rd rs sh s), ?_⟩
  have hamount : (BitVec.ofNat 32 sh.val).toNat = sh.val :=
    Nat.mod_eq_of_lt (sh.isLt.trans (by decide))
  have hresult : resultOf op s.u (seen s 3 rs) (BitVec.ofNat 32 sh.val) = value (seen s 3 rs) sh.val := by
    rw [hvalue, hamount]
  have hframe := regsAndFlags_compute s 3 op rd (seen s 3 rs) (BitVec.ofNat 32 sh.val)
  rw [hflags, section_zsFlags, hresult] at hframe
  exact hframe

/-! ## Shifts -/

/-- R167: the low five bits of a word are its value modulo 32. -/
theorem shiftAmount_eq_mod (v : Word) : shiftAmount v = v.toNat % 32 :=
  BitVec.extractLsb'_toNat 0 5 v

/-- R166: the quotient rounded toward minus infinity is the arithmetic shift. -/
theorem shiftRightArithmetic_eq_sshiftRight (v : Word) (n : Nat) : shiftRightArithmetic v n = v.sshiftRight n := by
  have hfloor : Int.fdiv v.toInt (2 ^ n) = v.toInt >>> n := by
    rw [Int.fdiv_eq_ediv_of_nonneg _ (by positivity), Int.shiftRight_eq_div_pow, Nat.cast_pow, Nat.cast_ofNat]
  rw [shiftRightArithmetic, hfloor, BitVec.sshiftRight]

/-! ## Overflow -/

/-- R170: equal signs of the operands and another sign of the wrapped sum, exactly when the sum of the signed values does
not fit. -/
theorem addOverflow_eq_decide (a b : Word) :
    (a.msb == b.msb && (a + b).msb != a.msb) = decide (a.toInt + b.toInt < -2 ^ 31 ∨ 2 ^ 31 ≤ a.toInt + b.toInt) :=
  calc (a.msb == b.msb && (a + b).msb != a.msb)
    _ = a.saddOverflow b := (BitVec.saddOverflow_eq a b).symm
    _ = _ := by rw [BitVec.saddOverflow, Bool.or_comm, Bool.decide_or]

/-- R171: different signs of the operands and a wrapped difference of another sign than the minuend, exactly when the
difference of the signed values does not fit. -/
theorem subOverflow_eq_decide (a b : Word) :
    (a.msb != b.msb && (a - b).msb != a.msb) = decide (a.toInt - b.toInt < -2 ^ 31 ∨ 2 ^ 31 ≤ a.toInt - b.toInt) :=
  calc (a.msb != b.msb && (a - b).msb != a.msb)
    _ = a.ssubOverflow b := by
      rw [BitVec.ssubOverflow_eq]
      cases a.msb <;> cases b.msb <;> simp
    _ = _ := by rw [BitVec.ssubOverflow, Bool.or_comm, Bool.decide_or]

/-- R32, R170. -/
theorem section_addFlags (a b : Word) :
    (addFlags a b).section = flagWord (a + b = 0) (2 ^ 32 ≤ a.toNat + b.toNat) (a + b).msb
      (a.toInt + b.toInt < -2 ^ 31 ∨ 2 ^ 31 ≤ a.toInt + b.toInt) := by
  simp only [section_eq_flagWord, addFlags, addOverflow_eq_decide]
  rw [beq_eq_decide]

/-- R32, R171. -/
theorem section_subFlags (a b : Word) :
    (subFlags a b).section = flagWord (a - b = 0) (a.toNat < b.toNat) (a - b).msb
      (a.toInt - b.toInt < -2 ^ 31 ∨ 2 ^ 31 ≤ a.toInt - b.toInt) := by
  simp only [section_eq_flagWord, subFlags, subOverflow_eq_decide]
  rw [beq_eq_decide]

end Sys2Proof.Machine
end

section
/-! The statements of spec/42_three_byte.md: the three-byte instructions (R161 to R171). The first conjunct for each
instruction is the form of R84, read off the row of R95 that the first byte selects and the constructor's own encoding;
the second is the rule of its operands' form (R160). -/

namespace Sys2Proof.Machine

open Sys2Proof.Claims

/-- Settles O44: the model's results are the bitwise operations themselves, with the flags of `SetZS`. -/
theorem bitwiseInstructions : Obligations.BitwiseInstructions := by
  refine ⟨⟨threeByteForm_registers rfl (fun _ _ _ => rfl) rfl, ?and⟩,
    ⟨threeByteForm_registers rfl (fun _ _ _ => rfl) rfl, ?or⟩,
    threeByteForm_registers rfl (fun _ _ _ => rfl) rfl, ?xor⟩
  case and => exact registerRule_of_zsFlags (op := .and) (fun _ _ _ _ => rfl) (fun _ _ _ => rfl) fun _ _ _ => rfl
  case or => exact registerRule_of_zsFlags (op := .or) (fun _ _ _ _ => rfl) (fun _ _ _ => rfl) fun _ _ _ => rfl
  case xor => exact registerRule_of_zsFlags (op := .xor) (fun _ _ _ _ => rfl) (fun _ _ _ => rfl) fun _ _ _ => rfl

/-- Settles O45: the amount is the field's own number, and the model's floor of a quotient is the arithmetic shift. -/
theorem shiftsByTheField : Obligations.ShiftsByTheField := by
  refine ⟨⟨threeByteForm_shamt rfl (fun _ _ _ => rfl) rfl, ?sll⟩,
    ⟨threeByteForm_shamt rfl (fun _ _ _ => rfl) rfl, ?srl⟩,
    threeByteForm_shamt rfl (fun _ _ _ => rfl) rfl, ?sra⟩
  case sll => exact shamtRule_of_computeShamt (op := .sll) (fun _ _ _ _ => rfl) (fun _ _ _ => rfl) fun _ _ _ => rfl
  case srl => exact shamtRule_of_computeShamt (op := .srl) (fun _ _ _ _ => rfl) (fun _ _ _ => rfl) fun _ _ _ => rfl
  case sra =>
    exact shamtRule_of_computeShamt (op := .sra) (fun _ _ _ _ => rfl)
      (fun _ a b => shiftRightArithmetic_eq_sshiftRight a b.toNat) fun _ _ _ => rfl

/-- Settles O46: the amount is the low five bits of the register. -/
theorem shiftsByARegister : Obligations.ShiftsByARegister := by
  refine ⟨⟨threeByteForm_registers rfl (fun _ _ _ => rfl) rfl, ?sllv⟩,
    ⟨threeByteForm_registers rfl (fun _ _ _ => rfl) rfl, ?srlv⟩,
    threeByteForm_registers rfl (fun _ _ _ => rfl) rfl, ?srav⟩
  case sllv =>
    exact registerRule_of_zsFlags (op := .sllv) (fun _ _ _ _ => rfl)
      (fun _ a b => congrArg (shiftLeft a) (shiftAmount_eq_mod b)) fun _ _ _ => rfl
  case srlv =>
    exact registerRule_of_zsFlags (op := .srlv) (fun _ _ _ _ => rfl)
      (fun _ a b => congrArg (shiftRightLogical a) (shiftAmount_eq_mod b)) fun _ _ _ => rfl
  case srav =>
    exact registerRule_of_zsFlags (op := .srav) (fun _ _ _ _ => rfl)
      (fun _ a b => (shiftRightArithmetic_eq_sshiftRight a _).trans (congrArg a.sshiftRight (shiftAmount_eq_mod b)))
      fun _ _ _ => rfl

/-- Settles O47: the model's overflow of the signs is that of the exact integers. -/
theorem addWrapsAndReportsOverflow : Obligations.AddWrapsAndReportsOverflow :=
  ⟨threeByteForm_registers rfl (fun _ _ _ => rfl) rfl,
    registerRule_of_computeRegisters (op := .add) (fun _ _ _ _ => rfl) (fun _ _ _ => rfl) fun _ => section_addFlags⟩

/-- Settles O48: the model's overflow of the signs is that of the exact integers. -/
theorem subWrapsAndReportsBorrow : Obligations.SubWrapsAndReportsBorrow :=
  ⟨threeByteForm_registers rfl (fun _ _ _ => rfl) rfl,
    registerRule_of_computeRegisters (op := .sub) (fun _ _ _ _ => rfl) (fun _ _ _ => rfl) fun _ => section_subFlags⟩

end Sys2Proof.Machine
end

section
/-! SUPPORT. The four-byte form (spec/30_encoding.md R85, R89): the byte `{rd, rs}`, the two bytes of the immediate, and the
row that the first byte selects. -/

namespace Sys2Proof

open Sys2Proof.Claims

theorem encodeFour_eq_nibbles (opcode : BitVec 3) (rd rs : Reg) (imm : BitVec 16) :
    encodeFour opcode rd rs imm = [0b11110#5 ++ opcode, nibbles rd rs, imm.extractLsb' 8 8, imm.extractLsb' 0 8] := by
  rw [nibbles_eq_fields, encodeFour]

/-- R85: the row that the first byte selects gives the decoding of every second byte and immediate; the encoding is the
constructor's own. -/
theorem fourByteForm_of_formatOf {b0 : Byte} {mk : Reg → Reg → BitVec 16 → Instr} {canon : Reg → Reg → Byte}
    (hformat : formatOf b0 = .ok (.four mk))
    (hencode : ∀ rd rs imm, encode (mk rd rs imm) = [b0, canon rd rs, imm.extractLsb' 8 8, imm.extractLsb' 0 8]) :
    FourByteForm b0 mk canon := by
  refine fun rd rs imm => ⟨fun rest => ?_, hencode rd rs imm⟩
  rw [decode_four hformat, highReg_nibbles, lowReg_nibbles, immOf_bytes]

end Sys2Proof
end

section
/-! SUPPORT. What each four-byte instruction answers, in the terms of the statements (spec/43_four_byte.md R190 to R192). -/

namespace Sys2Proof.Machine

open Sys2Proof.Claims

/-- R192: the target in the terms of the spec, the offset of a 16-bit immediate being its sign extension. -/
theorem branchTarget_toInt (next : Word) (imm : BitVec 16) : branchTarget next imm.toInt = next + imm.signExtend 32 := rfl

/-- R190. -/
theorem exec_li (rd : Reg) (imm : BitVec 16) (s : State) :
    exec (.li rd imm) s = .next ((s.advance 4).setReg rd ((seen s 4 rd).extractLsb' 16 16 ++ imm)) := by
  rw [← State.getReg_advance_eq_seen]
  rfl

/-- R191. -/
theorem exec_lui (rd : Reg) (imm : BitVec 16) (s : State) :
    exec (.lui rd imm) s = .next ((s.advance 4).setReg rd (imm ++ (seen s 4 rd).extractLsb' 0 16)) := by
  rw [← State.getReg_advance_eq_seen]
  rfl

/-- R192, taken: the target is counted from the advanced program counter. -/
theorem exec_beq_of_eq {rd rs : Reg} {s : State} (h : seen s 4 rd = seen s 4 rs) (imm : BitVec 16) :
    exec (.beq rd rs imm.toInt) s
      = .next ((s.advance 4).setReg Reg.pc (s.getReg Reg.pc + 4 + imm.signExtend 32)) := by
  have htarget : branchTarget (s.advance 4).pc imm.toInt = s.getReg Reg.pc + 4 + imm.signExtend 32 := by
    rw [branchTarget_toInt, State.pc_advance]
    rfl
  rw [← htarget]
  exact if_pos (by simpa only [State.getReg_advance_eq_seen] using h)

/-- R192, not taken. -/
theorem exec_beq_of_ne {rd rs : Reg} {s : State} (h : seen s 4 rd ≠ seen s 4 rs) (immed : Int) :
    exec (.beq rd rs immed) s = .next (s.advance 4) :=
  if_neg (by simpa only [State.getReg_advance_eq_seen] using h)

end Sys2Proof.Machine
end

section
/-! The statements of spec/43_four_byte.md: `li` (R190), `lui` (R191) and `beq` (R192). -/

namespace Sys2Proof.Machine

open Sys2Proof.Claims

/-- Settles O49: one register write after the advance. -/
theorem liWritesTheLowHalf : Obligations.LiWritesTheLowHalf :=
  ⟨fourByteForm_of_formatOf rfl fun _ _ _ => encodeFour_eq_nibbles ..,
    fun s rd imm => ⟨_, exec_li rd imm s, (onlyRegs_advance s 4).setReg rd _⟩⟩

/-- Settles O50: one register write after the advance. -/
theorem luiWritesTheHighHalf : Obligations.LuiWritesTheHighHalf :=
  ⟨fourByteForm_of_formatOf rfl fun _ _ _ => encodeFour_eq_nibbles ..,
    fun s rd imm => ⟨_, exec_lui rd imm s, (onlyRegs_advance s 4).setReg rd _⟩⟩

/-- Settles O51: a taken branch is a write to register 4, an untaken one the advance alone; the offset of every immediate is
encoded as that immediate. -/
theorem beqBranchesWhenEqual : Obligations.BeqBranchesWhenEqual := by
  refine ⟨fourByteForm_of_formatOf rfl fun rd rs imm => ?encoding,
    fun s rd rs imm => ⟨fun h => ?taken, fun h => ?untaken⟩⟩
  case encoding =>
    rw [encode, BitVec.ofInt_toInt]
    exact encodeFour_eq_nibbles ..
  case taken => exact ⟨_, exec_beq_of_eq h imm, (onlyRegs_advance s 4).setReg Reg.pc _⟩
  case untaken => exact ⟨_, exec_beq_of_ne h _, onlyRegs_advance s 4⟩

end Sys2Proof.Machine
end

section
/-! SUPPORT. What `syscall` answers for each selector, once per service (spec/44_system_calls.md R200 to R209), in terms of
the state before the step; print str's reading of memory stands in the section after this one. -/

namespace Sys2Proof.Machine

open Sys2Proof.Claims

/-! ## The selector -/

section
variable {t : State}

theorem service_exit (h : t.getReg Reg.v0 = 0) : service t = .ok (serviceExit t) := by
  rw [service, h]; rfl

theorem service_printInt (h : t.getReg Reg.v0 = 1) : service t = .ok (servicePrintInt t) := by
  rw [service, h]; rfl

theorem service_printChr (h : t.getReg Reg.v0 = 2) : service t = .ok (servicePrintChr t) := by
  rw [service, h]; rfl

theorem service_printStr (h : t.getReg Reg.v0 = 3) : service t = servicePrintStr t := by
  rw [service, h]; rfl

theorem service_readInt (h : t.getReg Reg.v0 = 4) : service t = .ok (serviceReadInt (Config.readInt t.oraclePos) t) := by
  rw [service, h]; rfl

theorem service_readChr (h : t.getReg Reg.v0 = 5) : service t = .ok (serviceReadChr (Config.readChr t.oraclePos) t) := by
  rw [service, h]; rfl

theorem service_readStr (h : t.getReg Reg.v0 = 6) : service t = serviceReadStr (Config.readStr t.oraclePos) t := by
  rw [service, h]; rfl

theorem service_sbrk (h : t.getReg Reg.v0 = 7) : service t = serviceSbrk t := by
  rw [service, h]; rfl

/-- R209: the whole 32-bit value selects. -/
theorem service_unknown (h : 7 < (t.getReg Reg.v0).toNat) : service t = .error (.badSyscall (t.getReg Reg.v0)) := by
  unfold service
  split
  case h_9 => rfl
  all_goals omega

end

/-! ## The services that can fault -/

section
variable {t t' : State}

theorem servicePrintStr_eq_ok :
    servicePrintStr t = .ok t' ↔
      ∃ bs, t.readString (2 ^ 32) (t.getReg Reg.g0) = .ok bs ∧ t' = t.emit (.printStr bs) := by
  unfold servicePrintStr
  cases t.readString (2 ^ 32) (t.getReg Reg.g0) <;> simp [eq_comm]

theorem servicePrintStr_eq_error {c : Cause} :
    servicePrintStr t = .error c ↔ t.readString (2 ^ 32) (t.getReg Reg.g0) = .error c := by
  unfold servicePrintStr
  cases t.readString (2 ^ 32) (t.getReg Reg.g0) <;> simp

theorem serviceReadStr_of_max_eq_zero {answer : Nat → List Byte} (h : t.getReg Reg.g1 = 0) :
    serviceReadStr answer t = .ok t := by
  simp [serviceReadStr, h]

theorem serviceReadStr_of_max_ne_zero {answer : Nat → List Byte} (h : t.getReg Reg.g1 ≠ 0) :
    serviceReadStr answer t = (t.writeBytes (t.getReg Reg.g0)
      (lawfulAnswer (t.getReg Reg.g1).toNat (answer (t.getReg Reg.g1).toNat) ++ [0])).map State.drawn := by
  have hm : (t.getReg Reg.g1).toNat ≠ 0 := fun e => h (BitVec.eq_of_toNat_eq e)
  simp only [serviceReadStr, if_neg hm]
  cases t.writeBytes (t.getReg Reg.g0) _ <;> rfl

theorem serviceSbrk_of_le (h : t.brk.toNat + (t.getReg Reg.g0).toNat ≤ t.params.heapLimit) :
    serviceSbrk t = .ok ((t.setReg Reg.v0 t.brk).setBrk (t.brk + t.getReg Reg.g0)) :=
  if_neg (Nat.not_lt.2 h)

theorem serviceSbrk_of_gt (h : t.params.heapLimit < t.brk.toNat + (t.getReg Reg.g0).toNat) :
    serviceSbrk t = .error (.outOfMemory (t.getReg Reg.g0)) :=
  if_pos h

end

/-! ## The answer of `syscall` -/

section
variable {s : State}

/-- R24: neither v0 nor the argument registers are the program counter, so a service sees those of the state before. -/
theorem State.getReg_v0_advance (s : State) (n : Nat) : (s.advance n).getReg Reg.v0 = s.getReg Reg.v0 :=
  State.getReg_advance_of_ne_pc (by decide) s n

theorem State.getReg_g0_advance (s : State) (n : Nat) : (s.advance n).getReg Reg.g0 = s.getReg Reg.g0 :=
  State.getReg_advance_of_ne_pc (by decide) s n

theorem State.getReg_g1_advance (s : State) (n : Nat) : (s.advance n).getReg Reg.g1 = s.getReg Reg.g1 :=
  State.getReg_advance_of_ne_pc (by decide) s n

theorem State.finish_error_eq_faultedAs (s : State) (c : Cause) : s.finish (.error c) = .next (faultedAs s c) := rfl

/-- R120. -/
theorem exec_syscall (s : State) : exec .syscall s = s.finish (service (s.advance 1)) := rfl

/-- R201. -/
theorem exec_syscall_exit (h : s.getReg Reg.v0 = 0) :
    exec .syscall s = .next ((s.advance 1).setStatus (.halted (s.getReg Reg.g0))) := by
  rw [exec_syscall, service_exit (by rwa [State.getReg_v0_advance]), serviceExit, State.getReg_g0_advance,
    State.finish_ok]

/-- R202. -/
theorem exec_syscall_printInt (h : s.getReg Reg.v0 = 1) :
    exec .syscall s = .next ((s.advance 1).emit (.printInt (s.getReg Reg.g0) s.u)) := by
  rw [exec_syscall, service_printInt (by rwa [State.getReg_v0_advance]), servicePrintInt, State.getReg_g0_advance,
    State.advance_u, State.finish_ok]

/-- R203. -/
theorem exec_syscall_printChr (h : s.getReg Reg.v0 = 2) :
    exec .syscall s = .next ((s.advance 1).emit (.printChr ((s.getReg Reg.g0).extractLsb' 0 8))) := by
  rw [exec_syscall, service_printChr (by rwa [State.getReg_v0_advance]), servicePrintChr, State.getReg_g0_advance,
    BitVec.setWidth_eq_extractLsb' (by decide), State.finish_ok]

/-- R205. -/
theorem exec_syscall_readInt (h : s.getReg Reg.v0 = 4) :
    exec .syscall s = .next ((s.advance 1).setReg Reg.v0 (Config.readInt s.oraclePos)).drawn := by
  rw [exec_syscall, service_readInt (by rwa [State.getReg_v0_advance]), serviceReadInt, State.advance_oraclePos,
    State.finish_ok]

/-- R206. -/
theorem exec_syscall_readChr (h : s.getReg Reg.v0 = 5) :
    exec .syscall s = .next ((s.advance 1).setReg Reg.v0 (Config.readChr s.oraclePos)).drawn := by
  rw [exec_syscall, service_readChr (by rwa [State.getReg_v0_advance]), serviceReadChr, State.advance_oraclePos,
    State.finish_ok]

/-- R207, a `max size` of 0. -/
theorem exec_syscall_readStr_of_max_eq_zero (h : s.getReg Reg.v0 = 6) (hmax : s.getReg Reg.g1 = 0) :
    exec .syscall s = .next (s.advance 1) := by
  rw [exec_syscall, service_readStr (by rwa [State.getReg_v0_advance]),
    serviceReadStr_of_max_eq_zero (by rwa [State.getReg_g1_advance]), State.finish_ok]

/-- R207: the answer and its zero byte are written, then the draw is counted. -/
theorem exec_syscall_readStr_of_max_ne_zero (h : s.getReg Reg.v0 = 6) (hmax : s.getReg Reg.g1 ≠ 0) :
    exec .syscall s = s.finish (((s.advance 1).writeBytes (s.getReg Reg.g0)
      (lawfulAnswer (s.getReg Reg.g1).toNat (Config.readStr s.oraclePos (s.getReg Reg.g1).toNat) ++ [0])).map
        State.drawn) := by
  rw [exec_syscall, service_readStr (by rwa [State.getReg_v0_advance]),
    serviceReadStr_of_max_ne_zero (by rwa [State.getReg_g1_advance]), State.getReg_g0_advance, State.getReg_g1_advance,
    State.advance_oraclePos]

/-- R208. -/
theorem exec_syscall_sbrk_of_le (h : s.getReg Reg.v0 = 7)
    (hle : s.brk.toNat + (s.getReg Reg.g0).toNat ≤ s.params.heapLimit) :
    exec .syscall s = .next (((s.advance 1).setReg Reg.v0 s.brk).setBrk (s.brk + s.getReg Reg.g0)) := by
  rw [exec_syscall, service_sbrk (by rwa [State.getReg_v0_advance]),
    serviceSbrk_of_le (by rwa [State.advance_brk, State.getReg_g0_advance, State.advance_params]), State.advance_brk,
    State.getReg_g0_advance, State.finish_ok]

theorem exec_syscall_sbrk_of_gt (h : s.getReg Reg.v0 = 7)
    (hgt : s.params.heapLimit < s.brk.toNat + (s.getReg Reg.g0).toNat) :
    exec .syscall s = .next (faultedAs s (.outOfMemory (s.getReg Reg.g0))) := by
  rw [exec_syscall, service_sbrk (by rwa [State.getReg_v0_advance]),
    serviceSbrk_of_gt (by rwa [State.advance_brk, State.getReg_g0_advance, State.advance_params]),
    State.getReg_g0_advance, State.finish_error_eq_faultedAs]

/-- R209. -/
theorem exec_syscall_unknown (h : 7 < (s.getReg Reg.v0).toNat) :
    exec .syscall s = .next (faultedAs s (.badSyscall (s.getReg Reg.v0))) := by
  rw [exec_syscall, service_unknown (by rwa [State.getReg_v0_advance]), State.getReg_v0_advance,
    State.finish_error_eq_faultedAs]

end

/-! ## The break -/

theorem brk_of_serviceReadStr {answer : Nat → List Byte} {t t' : State} (h : serviceReadStr answer t = .ok t') :
    t'.brk = t.brk := by
  by_cases hmax : t.getReg Reg.g1 = 0
  · rw [serviceReadStr_of_max_eq_zero hmax] at h
    rw [Except.ok.inj h]
  · rw [serviceReadStr_of_max_ne_zero hmax] at h
    cases hw : t.writeBytes (t.getReg Reg.g0) _ with
    | error c => rw [hw] at h; cases h
    | ok u =>
      obtain ⟨-, rfl⟩ := State.writeBytes_eq_ok.1 hw
      rw [hw] at h
      exact Except.ok.inj h ▸ rfl

/-- R208: of the services that complete, sbrk alone moves the break, by g0 and within `HEAP_LIMIT`. -/
theorem brk_of_service {t t' : State} (h : service t = .ok t') :
    t'.brk = t.brk ∨
      t.brk.toNat + (t.getReg Reg.g0).toNat ≤ t.params.heapLimit ∧ t'.brk = t.brk + t.getReg Reg.g0 := by
  unfold service at h
  split at h
  · exact .inl (Except.ok.inj h ▸ rfl)
  · exact .inl (Except.ok.inj h ▸ rfl)
  · exact .inl (Except.ok.inj h ▸ rfl)
  · obtain ⟨bs, -, rfl⟩ := servicePrintStr_eq_ok.1 h
    exact .inl (State.emit_brk ..)
  · exact .inl (Except.ok.inj h ▸ State.setReg_brk ..)
  · exact .inl (Except.ok.inj h ▸ State.setReg_brk ..)
  · exact .inl (brk_of_serviceReadStr h)
  · by_cases hle : t.brk.toNat + (t.getReg Reg.g0).toNat ≤ t.params.heapLimit
    · obtain rfl := Except.ok.inj ((serviceSbrk_of_le hle).symm.trans h)
      exact .inr ⟨hle, rfl⟩
    · rw [serviceSbrk_of_gt (Nat.not_le.1 hle)] at h
      cases h
  · cases h

/-- R37, R208: a step leaves the break, or adds g0 to it within `HEAP_LIMIT`. -/
theorem brk_of_step {s t : State} (h : step s = .next t) :
    t.brk = s.brk ∨
      s.brk.toNat + (s.getReg Reg.g0).toNat ≤ s.params.heapLimit ∧ t.brk = s.brk + s.getReg Reg.g0 := by
  obtain ⟨-, ⟨c, -, rfl⟩ | ⟨i, -, hexec⟩⟩ := step_eq_next h
  · exact .inl (State.setStatus_brk ..)
  by_cases hi : i = .syscall
  · subst hi
    rcases State.finish_eq_next.1 ((exec_syscall s).symm.trans hexec) with hok | ⟨c, -, rfl⟩
    · simpa [State.getReg_g0_advance] using brk_of_service hok
    · exact .inl (State.setStatus_brk ..)
  · exact .inl ((touches_of_exec hexec).brk_oraclePos hi).1

end Sys2Proof.Machine
end

section
/-! SUPPORT. Print str's reading of memory (spec/44_system_calls.md R204): the bytes before the first zero byte are taken one
by one, and what follows them decides the answer. -/

namespace Sys2Proof.Machine

open Sys2Proof.Claims

variable {t : State} {p : Word}

/-! ## One byte -/

theorem State.memRead_one_of_mapped (h : t.mapped p = true) : t.memRead p 1 = .ok ((t.byteAt p).setWidth 32) := by
  refine State.memRead_eq_ok.2 ⟨fun k hk => ?_, (assemble_addresses_one t p).symm⟩
  simpa [Nat.lt_one_iff.1 hk] using h

theorem State.memRead_one_of_unmapped (h : t.mapped p = false) : t.memRead p 1 = .error (.memFault p .read) :=
  State.memRead_eq_error.2 ⟨p, State.firstUnmapped_eq_some.2 ⟨0, Nat.one_pos, by simp, h, by simp⟩, rfl⟩

theorem State.readString_succ_of_unmapped (h : t.mapped p = false) (fuel : Nat) :
    t.readString (fuel + 1) p = .error (.memFault p .read) := by
  rw [State.readString, State.memRead_one_of_unmapped h]

theorem State.readString_succ_of_mapped (h : t.mapped p = true) (fuel : Nat) :
    t.readString (fuel + 1) p =
      if t.byteAt p = 0 then .ok [] else (t.readString fuel (p + 1)).map (t.byteAt p :: ·) := by
  have hbyte : ((t.byteAt p).setWidth 32).setWidth 8 = t.byteAt p := by simp
  rw [State.readString, State.memRead_one_of_mapped h]
  dsimp only
  rw [hbyte]
  cases t.readString fuel (p + 1) <;> rfl

/-! ## Several bytes -/

theorem addresses_succ (addr : Word) (n : Nat) : addresses addr (n + 1) = addr :: addresses (addr + 1) n := by
  simp only [addresses, List.range_succ_eq_map, List.map_cons, List.map_map, BitVec.ofNat_eq_ofNat, BitVec.add_zero]
  exact congrArg _ (List.map_congr_left fun k _ => (add_one_add addr k).symm)

/-- Each of the `n` bytes at `p` is mapped and not zero. -/
def NonZeroBytes (t : State) (p : Word) (n : Nat) : Prop :=
  ∀ k < n, t.mapped (p + BitVec.ofNat 32 k) = true ∧ t.byteAt (p + BitVec.ofNat 32 k) ≠ 0

/-- R204: over `n` non-zero bytes the reading goes on at the byte after them. -/
theorem State.readString_add {n : Nat} (h : NonZeroBytes t p n) (fuel : Nat) :
    t.readString (n + fuel) p =
      (t.readString fuel (p + BitVec.ofNat 32 n)).map ((addresses p n).map t.byteAt ++ ·) := by
  induction n generalizing p with
  | zero =>
    rw [Nat.zero_add, BitVec.add_zero]
    cases t.readString fuel p <;> rfl
  | succ n ih =>
    obtain ⟨hmapped, hne⟩ : t.mapped p = true ∧ t.byteAt p ≠ 0 := by simpa using h 0 n.succ_pos
    have htail : NonZeroBytes t (p + 1) n := fun k hk => by
      rw [add_one_add]
      exact h (k + 1) (Nat.succ_lt_succ hk)
    rw [Nat.add_right_comm, State.readString_succ_of_mapped hmapped, if_neg hne, ih htail, add_one_add,
      addresses_succ]
    cases t.readString fuel (p + BitVec.ofNat 32 (n + 1)) <;> rfl

theorem State.readString_of_zero {n fuel : Nat} (hn : n < fuel) (h : NonZeroBytes t p n)
    (hmapped : t.mapped (p + BitVec.ofNat 32 n) = true) (hzero : t.byteAt (p + BitVec.ofNat 32 n) = 0) :
    t.readString fuel p = .ok ((addresses p n).map t.byteAt) := by
  obtain ⟨k, rfl⟩ := Nat.exists_eq_add_of_lt hn
  rw [Nat.add_assoc, State.readString_add h, State.readString_succ_of_mapped hmapped, if_pos hzero]
  simp [Except.map]

theorem State.readString_of_unmapped {n fuel : Nat} (hn : n < fuel) (h : NonZeroBytes t p n)
    (hmapped : t.mapped (p + BitVec.ofNat 32 n) = false) :
    t.readString fuel p = .error (.memFault (p + BitVec.ofNat 32 n) .read) := by
  obtain ⟨k, rfl⟩ := Nat.exists_eq_add_of_lt hn
  rw [Nat.add_assoc, State.readString_add h, State.readString_succ_of_unmapped hmapped]
  rfl

theorem State.readString_of_nonZeroBytes {fuel : Nat} (h : NonZeroBytes t p fuel) :
    t.readString fuel p = .error .unterminatedString :=
  State.readString_add h 0

/-! ## The service -/

variable {s : State}

@[simp] theorem State.advance_memRead (s : State) (n : Nat) (addr : Word) (k : Nat) :
    (s.advance n).memRead addr k = s.memRead addr k := by
  simp only [State.memRead, State.readBytes, State.firstUnmapped_congr (State.advance_params s n),
    funext (State.advance_byteAt s n), State.advance_params]

/-- R24, R204: the reading does not see the program counter. -/
@[simp] theorem State.advance_readString (s : State) (n fuel : Nat) (p : Word) :
    (s.advance n).readString fuel p = s.readString fuel p := by
  induction fuel generalizing p with
  | zero => rfl
  | succ fuel ih => simp only [State.readString, State.advance_memRead, ih]

theorem exec_syscall_printStr (h : s.getReg Reg.v0 = 3) {bs : List Byte}
    (hread : s.readString (2 ^ 32) (s.getReg Reg.g0) = .ok bs) :
    exec .syscall s = .next ((s.advance 1).emit (.printStr bs)) := by
  rw [exec_syscall, service_printStr (by rwa [State.getReg_v0_advance]),
    servicePrintStr_eq_ok.2 ⟨bs, by rwa [State.getReg_g0_advance, State.advance_readString], rfl⟩, State.finish_ok]

theorem exec_syscall_printStr_error (h : s.getReg Reg.v0 = 3) {c : Cause}
    (hread : s.readString (2 ^ 32) (s.getReg Reg.g0) = .error c) :
    exec .syscall s = .next (faultedAs s c) := by
  rw [exec_syscall, service_printStr (by rwa [State.getReg_v0_advance]),
    servicePrintStr_eq_error.2 (by rwa [State.getReg_g0_advance, State.advance_readString]),
    State.finish_error_eq_faultedAs]

end Sys2Proof.Machine
end

section
/-! SUPPORT. Read str's answer (spec/44_system_calls.md R207): what the two laws leave of it, and its store. -/

namespace Sys2Proof.Machine

open Sys2Proof.Claims

/-! ## The two laws -/

theorem length_lawfulAnswer_le (max : Nat) (answer : List Byte) : (lawfulAnswer max answer).length ≤ max - 1 :=
  List.length_take_le ..

theorem zero_notMem_lawfulAnswer (max : Nat) (answer : List Byte) : 0 ∉ lawfulAnswer max answer := fun h => by
  simpa using List.mem_of_mem_take h

theorem lawfulAnswer_eq_self {max : Nat} {answer : List Byte} (hlen : answer.length ≤ max - 1) (hzero : 0 ∉ answer) :
    lawfulAnswer max answer = answer := by
  have hfilter : answer.filter (fun b => b ≠ 0) = answer :=
    List.filter_eq_self.2 fun b hb => decide_eq_true fun e => hzero (e ▸ hb)
  rw [lawfulAnswer, hfilter, List.take_of_length_le hlen]

/-! ## The store -/

theorem writeBytes_of_allMapped {s : State} {addr : Word} {bs : List Byte} (h : AllMapped s addr bs.length) (n : Nat) :
    (s.advance n).writeBytes addr bs = .ok ((s.advance n).setMem (s.mem.storeBytes addr bs)) :=
  State.writeBytes_eq_ok.2 ⟨allMapped_of_params_eq (State.advance_params ..) h, by rw [State.advance_mem]⟩

theorem writeBytes_of_firstUnmapped {s : State} {addr x : Word} {bs : List Byte}
    (h : FirstUnmapped s addr bs.length x) (n : Nat) :
    (s.advance n).writeBytes addr bs = .error (.memFault x .write) :=
  State.writeBytes_eq_error.2 ⟨x, firstUnmapped_advance h n, rfl⟩

end Sys2Proof.Machine
end

section
/-! SUPPORT. The frame of a service that completes: the register writes, and what it does to the state that the host
shares (spec/44_system_calls.md R200). -/

namespace Sys2Proof.Claims

open Sys2Proof.Machine

/-- A system call that makes these register writes and leaves the host's state so, and changes nothing else. -/
def RegsAndHost (s t : State) (writes : List (Reg × Word)) (brk : Word) (out : List Event) (pos : Nat)
    (status : Status) : Prop :=
  RegsAre s t 1 writes ∧ t.sr = s.sr ∧ MemSame s t ∧ HostState s t brk out pos status

variable {s t : State} {writes : List (Reg × Word)}

theorem OnlyRegs.setStatus (h : OnlyRegs s t 1 writes) (st : Status) :
    RegsAndHost s (t.setStatus st) writes s.brk s.out s.oraclePos st := by
  obtain ⟨hregs, hsr, hmem, hbrk, hout, hpos, -, hparams⟩ := h
  exact ⟨hregs, hsr, hmem, hbrk, hout, hpos, rfl, hparams⟩

theorem OnlyRegs.emit (h : OnlyRegs s t 1 writes) (e : Event) :
    RegsAndHost s (t.emit e) writes s.brk (s.out ++ [e]) s.oraclePos s.status := by
  obtain ⟨hregs, hsr, hmem, hbrk, hout, hpos, hstatus, hparams⟩ := h
  exact ⟨hregs, hsr, hmem, hbrk, by rw [State.emit_out, hout], hpos, hstatus, hparams⟩

theorem OnlyRegs.drawn (h : OnlyRegs s t 1 writes) :
    RegsAndHost s t.drawn writes s.brk s.out (s.oraclePos + 1) s.status := by
  obtain ⟨hregs, hsr, hmem, hbrk, hout, hpos, hstatus, hparams⟩ := h
  exact ⟨hregs, hsr, hmem, hbrk, hout, by rw [State.drawn_oraclePos, hpos], hstatus, hparams⟩

theorem OnlyRegs.setBrk (h : OnlyRegs s t 1 writes) (b : Word) :
    RegsAndHost s (t.setBrk b) writes b s.out s.oraclePos s.status := by
  obtain ⟨hregs, hsr, hmem, -, hout, hpos, hstatus, hparams⟩ := h
  exact ⟨hregs, hsr, hmem, rfl, hout, hpos, hstatus, hparams⟩

/-- R207: neither the advance nor the store of read str reaches the host's state; the draw moves the position. -/
theorem hostState_drawn_advance (s : State) (n : Nat) (m : Memory) :
    HostState s ((s.advance n).setMem m).drawn s.brk s.out (s.oraclePos + 1) s.status := by
  obtain ⟨hbrk, hout, hpos, hstatus, hparams⟩ := hostSame_advance s n
  exact ⟨hbrk, hout, congrArg (· + 1) hpos, hstatus, hparams⟩

end Sys2Proof.Claims
end

section
/-! The statements of spec/44_system_calls.md: the eight services (R201 to R208), the unknown selectors (R209), and the
break along a step (R208). -/

namespace Sys2Proof.Machine

open Sys2Proof.Claims

/-- Settles O24: below 2^32 the sum that sbrk stores does not wrap. -/
theorem breakOnlyRisesToTheLimit : Obligations.BreakOnlyRisesToTheLimit := by
  intro s t hlimit hbrk hstep
  rw [stepKeepsParameters s t hstep]
  rcases brk_of_step hstep with hsame | ⟨hle, hmoved⟩
  · rw [hsame]
    exact ⟨le_rfl, hbrk⟩
  · have hsum : t.brk.toNat = s.brk.toNat + (s.getReg Reg.g0).toNat := by
      rw [hmoved, BitVec.toNat_add_of_lt (by omega)]
    omega

/-- Settles O52: the status is written after the advance, and a halted machine has no step. -/
theorem exitHaltsWithG0 : Obligations.ExitHaltsWithG0 := by
  intro s hv
  obtain ⟨hregs, hsr, hmem, hhost⟩ := (onlyRegs_advance s 1).setStatus (.halted (s.getReg Reg.g0))
  exact ⟨_, exec_syscall_exit hv, hregs, hsr, hmem, hhost, step_ne_next_of_not_running (by simp)⟩

/-- Settles O53: the event is appended after the advance. -/
theorem printIntAndPrintChrAppendOneEvent : Obligations.PrintIntAndPrintChrAppendOneEvent :=
  fun s => ⟨fun hv => ⟨_, exec_syscall_printInt hv, (onlyRegs_advance s 1).emit _⟩,
    fun hv => ⟨_, exec_syscall_printChr hv, (onlyRegs_advance s 1).emit _⟩⟩

/-- Settles O54: what follows the non-zero bytes at g0, a zero byte, an unmapped one, or nothing, decides the answer. -/
theorem printStrAppendsTheString : Obligations.PrintStrAppendsTheString := by
  refine fun s hv => ⟨fun bs hlen hmapped hbytes hzero => ?string, fun n hn hbytes hunmapped => ?unmapped,
    fun hall => ?unterminated⟩
  case string =>
    have hrun : NonZeroBytes s (s.getReg Reg.g0) bs.length := fun k hk =>
      ⟨hmapped k (by omega), by rw [(hbytes k hk).1]; exact (hbytes k hk).2⟩
    have hread := State.readString_of_zero hlen hrun (hmapped _ (Nat.lt_succ_self _)) hzero
    have hbs : (addresses (s.getReg Reg.g0) bs.length).map s.byteAt = bs :=
      List.ext_getElem (by simp) fun k _ hk => by simpa [addresses] using (hbytes k hk).1
    rw [hbs] at hread
    exact ⟨_, exec_syscall_printStr hv hread, (onlyRegs_advance s 1).emit _⟩
  case unmapped => exact exec_syscall_printStr_error hv (State.readString_of_unmapped hn hbytes hunmapped)
  case unterminated => exact exec_syscall_printStr_error hv (State.readString_of_nonZeroBytes fun _ _ => hall _)

/-- Settles O55: v0 is written after the advance, and the draw counted. -/
theorem readIntAndReadChrPutTheAnswerInV0 : Obligations.ReadIntAndReadChrPutTheAnswerInV0 :=
  fun s => ⟨fun hv => ⟨_, exec_syscall_readInt hv, ((onlyRegs_advance s 1).setReg Reg.v0 _).drawn⟩,
    fun hv => ⟨_, exec_syscall_readChr hv, ((onlyRegs_advance s 1).setReg Reg.v0 _).drawn⟩⟩

/-- Settles O56: the answer has the two laws, and its bytes with the zero byte are stored or fault like any others. -/
theorem readStrStoresTheAnswer : Obligations.ReadStrStoresTheAnswer := by
  refine ⟨fun _ _ => lawfulAnswer_eq_self, fun s hv => ⟨fun hmax => ?nothing, fun hmax str hstr => ?answer⟩⟩
  case nothing => exact ⟨_, exec_syscall_readStr_of_max_eq_zero hv hmax, onlyRegs_advance s 1⟩
  case answer =>
    have hexec := exec_syscall_readStr_of_max_ne_zero hv hmax
    have hlen : str.length ≤ (s.getReg Reg.g1).toNat - 1 := hstr ▸ length_lawfulAnswer_le ..
    have hbytes : (str ++ [0]).length = str.length + 1 := by simp
    rw [← hstr] at hexec
    rw [← hbytes]
    refine ⟨hlen, hstr ▸ zero_notMem_lawfulAnswer _ _, fun hmapped => ?stored, fun x hx => ?fault⟩
    case stored =>
      rw [writeBytes_of_allMapped hmapped] at hexec
      refine ⟨_, hexec, regsAre_advance s 1, State.advance_sr s 1, hostState_drawn_advance s 1 _,
        fun a ha => Memory.byteAt_storeBytes_of_ne _ _ _ a ha, fun hwf k hk => ?_⟩
      have hmaxlt := (s.getReg Reg.g1).isLt
      exact Memory.byteAt_storeBytes hwf _ _ (by omega) k hk
    case fault =>
      rw [writeBytes_of_firstUnmapped hx] at hexec
      exact hexec

/-- Settles O57: within the limit v0 and the break are written after the advance; past it the answer is the fault. -/
theorem sbrkReturnsTheOldBreak : Obligations.SbrkReturnsTheOldBreak :=
  fun s hv => ⟨fun hle => ⟨_, exec_syscall_sbrk_of_le hv hle, ((onlyRegs_advance s 1).setReg Reg.v0 _).setBrk _⟩,
    exec_syscall_sbrk_of_gt hv⟩

/-- Settles O58. -/
theorem unknownSelectorFaults : Obligations.UnknownSelectorFaults :=
  fun _ => exec_syscall_unknown

end Sys2Proof.Machine
end

section
/-! SUPPORT. The faults of the fetch (spec/60_exceptions.md R221, R222): what a first byte says of its format, and
what the fetch answers when `B0` is unmapped, when it is illegal, and when a later byte is unmapped. -/

namespace Sys2Proof

open Sys2Proof.Claims

/-! ## Length and format of a first byte -/

theorem exists_formatOf_of_lengthOf {b0 : Byte} {n : Nat} (h : lengthOf b0 = some n) :
    ∃ f, formatOf b0 = .ok f ∧ f.length = n := by
  rw [lengthOf_eq_length_of_formatOf] at h
  cases hf : formatOf b0 with
  | error e => simp [hf, Except.toOption] at h
  | ok f => exact ⟨f, rfl, by simpa [hf, Except.toOption] using h⟩

theorem exists_formatOf_error_of_lengthOf {b0 : Byte} (h : lengthOf b0 = none) : ∃ e, formatOf b0 = .error e := by
  rw [lengthOf_eq_length_of_formatOf] at h
  cases hf : formatOf b0 with
  | error e => exact ⟨e, rfl⟩
  | ok f => simp [hf, Except.toOption] at h

end Sys2Proof

namespace Sys2Proof.Machine

open Sys2Proof.Claims

variable {s : State} {a x : Word} {n : Nat}

/-! ## The unmapped byte of a run of bytes -/

theorem firstUnmapped_of_unmapped_head (h : s.mapped a = false) (hn : 0 < n) : FirstUnmapped s a n a :=
  ⟨0, hn, (BitVec.add_zero a).symm, h, fun _ hk => absurd hk (Nat.not_lt_zero _)⟩

/-- Past a mapped byte, the first unmapped byte is that of the bytes after it. -/
theorem firstUnmapped_tail_of_mapped_head (h : FirstUnmapped s a n x) (ha : s.mapped a = true) :
    FirstUnmapped s (a + 1) (n - 1) x := by
  have hfind := State.firstUnmapped_eq_some.2 h
  cases n with
  | zero => cases hfind
  | succ n =>
    rw [State.firstUnmapped, addresses_succ, List.find?_cons_of_neg (by simp [ha])] at hfind
    exact State.firstUnmapped_eq_some.1 hfind

/-! ## Fetching bytes (R58) -/

theorem State.fetchBytes_one_of_mapped (h : s.mapped a = true) : s.fetchBytes a 1 = .ok [s.byteAt a] :=
  State.readBytes_eq_ok.2 ⟨by simpa using h, by simp [addresses]⟩

theorem State.fetchBytes_of_firstUnmapped (h : FirstUnmapped s a n x) : s.fetchBytes a n = .error (.fetchFault x) :=
  State.readBytes_eq_error.2 ⟨x, State.firstUnmapped_eq_some.2 h, rfl⟩

/-! ## Fetching an instruction (R255) -/

theorem State.fetchInstr_of_unmapped (h : s.mapped s.pc = false) : s.fetchInstr = .error (.fetchFault s.pc) := by
  rw [State.fetchInstr, State.fetchBytes_of_firstUnmapped (firstUnmapped_of_unmapped_head h Nat.one_pos)]

/-- R222: legality is decided from `B0` alone. -/
theorem State.fetchInstr_of_illegal (hpc : s.mapped s.pc = true) {e : Illegal}
    (h : formatOf (s.byteAt s.pc) = .error e) : s.fetchInstr = .error (.illegalInstruction (s.byteAt s.pc)) := by
  simp only [State.fetchInstr, State.fetchBytes_one_of_mapped hpc, List.headD_cons, h]

/-- R221: past a legal `B0`, the first unmapped byte of those after it. -/
theorem State.fetchInstr_of_firstUnmapped (hpc : s.mapped s.pc = true) {f : Format}
    (hf : formatOf (s.byteAt s.pc) = .ok f) (h : FirstUnmapped s s.pc f.length x) :
    s.fetchInstr = .error (.fetchFault x) := by
  have hrest := State.fetchBytes_of_firstUnmapped (firstUnmapped_tail_of_mapped_head h hpc)
  simp only [State.fetchInstr, State.fetchBytes_one_of_mapped hpc, List.headD_cons, hf, hrest]

/-- R15, R255: a fault of the fetch is the whole step. -/
theorem step_of_fetchInstr_error (hs : s.status = .running) {c : Cause} (h : s.fetchInstr = .error c) :
    step s = .next (faultedAs s c) := by
  rw [step_running hs, h]
  exact State.finish_error_eq_faultedAs s c

end Sys2Proof.Machine
end

section
/-! The statements of spec/60_exceptions.md: the two faults of the fetch (R221, R222). -/

namespace Sys2Proof.Machine

open Sys2Proof.Claims

/-- Settles O6: `B0` is fetched first, and its format tells how many bytes are fetched after it. -/
theorem unmappedInstructionByteIsFetchFault : Obligations.UnmappedInstructionByteIsFetchFault := by
  refine fun s hs => ⟨fun hpc => ?first, fun n x hlength hpc hx => ?later⟩
  case first => exact step_of_fetchInstr_error hs (State.fetchInstr_of_unmapped hpc)
  case later =>
    obtain ⟨f, hf, rfl⟩ := exists_formatOf_of_lengthOf hlength
    exact step_of_fetchInstr_error hs (State.fetchInstr_of_firstUnmapped hpc hf hx)

/-- Settles O7: a byte without a length has no format, and the fetch ends there. -/
theorem illegalFirstByteFaults : Obligations.IllegalFirstByteFaults := by
  intro s hs hpc hlength
  obtain ⟨e, he⟩ := exists_formatOf_error_of_lengthOf hlength
  exact step_of_fetchInstr_error hs (State.fetchInstr_of_illegal hpc he)

end Sys2Proof.Machine
end

section
/-! SUPPORT. Fetching the bytes that stand at the program counter (spec/20_memory.md R58, spec/70_reset_and_hazards.md
R255): how many of them a decoding takes, and that the fetch reads them and decodes them. -/

namespace Sys2Proof

/-- R81, R90: bytes decoded with none left over are as many as the format of the first one says. -/
theorem exists_formatOf_of_decode_eq_ok_nil {b0 : Byte} {bs : List Byte} {i : Instr}
    (h : decode (b0 :: bs) = .ok (i, [])) : ∃ f, formatOf b0 = .ok f ∧ f.length - 1 = bs.length := by
  obtain ⟨hf, rfl⟩ | ⟨mk, b1, hf, rfl, -⟩ | ⟨mk, b1, b2, hf, rfl, -⟩ | ⟨mk, b1, b2, b3, hf, rfl, -⟩ := decode_eq_ok h
  all_goals exact ⟨_, hf, rfl⟩

end Sys2Proof

namespace Sys2Proof.Machine

variable {s : State} {a : Word} {b : Byte} {bs : List Byte} {i : Instr}

/-! ## Bytes that stand in memory -/

/-- The bytes `bs` stand at mapped addresses from `a` up. -/
def BytesStandAt (s : State) (a : Word) (bs : List Byte) : Prop :=
  ∀ (k : Nat) (h : k < bs.length), s.mapped (a + BitVec.ofNat 32 k) = true ∧ s.byteAt (a + BitVec.ofNat 32 k) = bs[k]

theorem BytesStandAt.head (h : BytesStandAt s a (b :: bs)) : s.mapped a = true ∧ s.byteAt a = b := by
  simpa using h 0 (Nat.succ_pos _)

theorem BytesStandAt.tail (h : BytesStandAt s a (b :: bs)) : BytesStandAt s (a + 1) bs := by
  intro k hk
  rw [add_one_add]
  exact h (k + 1) (Nat.succ_lt_succ hk)

/-! ## Fetching them -/

theorem State.fetchBytes_of_bytesStandAt (h : BytesStandAt s a bs) : s.fetchBytes a bs.length = .ok bs := by
  refine State.readBytes_eq_ok.2 ⟨fun k hk => (h k hk).1, List.ext_getElem (by simp) fun k hk _ => ?_⟩
  simpa [addresses] using (h k hk).2.symm

/-- R58, R255: the first byte tells the number of the bytes after it, and all of them are decoded together. -/
theorem State.fetchInstr_of_decode (hbytes : BytesStandAt s s.pc bs) (hdecode : decode bs = .ok (i, [])) :
    s.fetchInstr = .ok i := by
  cases bs with
  | nil => cases hdecode
  | cons b0 operands =>
    obtain ⟨hmapped, hb0⟩ := hbytes.head
    obtain ⟨f, hf, hlength⟩ := exists_formatOf_of_decode_eq_ok_nil hdecode
    have hoperands := State.fetchBytes_of_bytesStandAt hbytes.tail
    simp only [State.fetchInstr, State.fetchBytes_one_of_mapped hmapped, List.headD_cons, hb0, hf, hlength, hoperands,
      hdecode]

/-! ## The step of a running machine -/

/-- R24, R255: the step adds nothing to executing what was fetched. -/
theorem step_of_fetchInstr_ok (hs : s.status = .running) (h : s.fetchInstr = .ok i) : step s = exec i s := by
  rw [step_running hs, h]

/-- R15, R255: a fault of the fetch is a next state, and so is every answer of an instruction. -/
theorem exists_step_eq_next_of_running (hs : s.status = .running) : ∃ t, step s = .next t := by
  cases hfetch : s.fetchInstr with
  | error c => exact ⟨_, step_of_fetchInstr_error hs hfetch⟩
  | ok i =>
    obtain ⟨t, hexec, -⟩ := exec_answersWithin i s
    exact ⟨t, (step_of_fetchInstr_ok hs hfetch).trans hexec⟩

end Sys2Proof.Machine
end

section
/-! The statements of spec/70_reset_and_hazards.md: the execution loop (R255, R256). -/

namespace Sys2Proof.Machine

/-- Settles O9: a running machine takes the fault of its fetch or executes, and both answer with a next state. -/
theorem stepExactlyWhenRunning : Obligations.StepExactlyWhenRunning :=
  fun _ => ⟨fun ⟨_, hstep⟩ => (step_eq_next hstep).1, exists_step_eq_next_of_running⟩

/-- Settles O5: the fetch reads the bytes that stand at the program counter and decodes them to `i`. -/
theorem stepExecutesTheDecodedInstruction : Obligations.StepExecutesTheDecodedInstruction :=
  fun _ _ _ hs hdecode hbytes => step_of_fetchInstr_ok hs (State.fetchInstr_of_decode hbytes hdecode)

end Sys2Proof.Machine
end
